-- ==== Sys2Proof/Word.lean ====
section
/-! DEFINITION. The two bit-vector types of the machine. A register, a memory cell, an address and an instruction word are
16 bits wide (00_scope.md R7); a console byte and a trap vector are 8 bits wide (10_state.md R56, 44_trap.md R201).
`+` on them is addition modulo 2 to the width, which is what 00_scope.md R13 asks. -/

namespace Sys2Proof

/-- A 16-bit value: register contents, cell contents, address or instruction word. -/
abbrev Word := BitVec 16

/-- An 8-bit value: a console byte or a trap vector. -/
abbrev Byte := BitVec 8

end Sys2Proof
end

