-- ==== Sys2Proof/Syntax.lean ====
section
/-! DEFINITION. The instructions, one constructor per row of spec/opcode_table.json (19 rows, 30_encoding.md R107).
Every field has the type of exactly the values its encoding admits (30_encoding.md R93, R105); the bits that the decoder
ignores (R106) are no part of an instruction. -/

namespace Sys2Proof

/-- The eight general registers, named by a 3-bit number (00_scope.md R14, 10_state.md R30). -/
inductive Reg where
  | r0 | r1 | r2 | r3 | r4 | r5 | r6 | r7
  deriving DecidableEq, Repr

/-- An instruction. Offsets and immediates are kept as the encoding's bit fields; the rules sign-extend them. -/
inductive Instr where
  /-- `ADD DR, SR1, SR2` (R140). -/
  | addReg (dr sr1 sr2 : Reg)
  /-- `ADD DR, SR1, #imm5` (R141). -/
  | addImm (dr sr1 : Reg) (imm5 : BitVec 5)
  /-- `AND DR, SR1, SR2` (R142). -/
  | andReg (dr sr1 sr2 : Reg)
  /-- `AND DR, SR1, #imm5` (R143). -/
  | andImm (dr sr1 : Reg) (imm5 : BitVec 5)
  /-- `NOT DR, SR` (R144). -/
  | not (dr sr : Reg)
  /-- `BR{n}{z}{p} PCoffset9` (R160). -/
  | br (n z p : Bool) (off9 : BitVec 9)
  /-- `JMP BaseR`; RET is `JMP R7` (R161). -/
  | jmp (base : Reg)
  /-- `JSR PCoffset11` (R162). -/
  | jsr (off11 : BitVec 11)
  /-- `JSRR BaseR` (R163). -/
  | jsrr (base : Reg)
  /-- `LD DR, PCoffset9` (R180). -/
  | ld (dr : Reg) (off9 : BitVec 9)
  /-- `LDI DR, PCoffset9` (R181). -/
  | ldi (dr : Reg) (off9 : BitVec 9)
  /-- `LDR DR, BaseR, #offset6` (R182). -/
  | ldr (dr base : Reg) (off6 : BitVec 6)
  /-- `LEA DR, PCoffset9` (R183). -/
  | lea (dr : Reg) (off9 : BitVec 9)
  /-- `ST SR, PCoffset9` (R184). -/
  | st (sr : Reg) (off9 : BitVec 9)
  /-- `STI SR, PCoffset9` (R185). -/
  | sti (sr : Reg) (off9 : BitVec 9)
  /-- `STR SR, BaseR, #offset6` (R186). -/
  | str (sr base : Reg) (off6 : BitVec 6)
  /-- `TRAP trapvect8` (R200). -/
  | trap (vect8 : Byte)
  /-- `RTI`, illegal on this machine (R230). -/
  | rti
  /-- `RES`, the reserved opcode, illegal (R231). -/
  | res
  deriving DecidableEq, Repr

end Sys2Proof
end

