-- ==== Sys2Proof/Decode.lean ====
section
/-! DEFINITION. Decoding, encoding and the opcode table (30_encoding.md). Decode is total: every 16-bit word is exactly one
row (R107), so there is nothing to refuse. The opcode numbers and the field positions are the spec's R92 and R93, which
mark them as general knowledge: UNVERIFIED, unsafe (notes/assumptions/1.md). -/

namespace Sys2Proof

/-- Bit `i` of a word, bit 0 the least significant (00_scope.md R9). -/
def bit (w : Word) (i : Nat) : Bool := w.getLsbD i

/-- The field of `n` bits whose lowest bit is `lo` (00_scope.md R9: `w[lo+n-1:lo]`). -/
def field (w : Word) (lo n : Nat) : BitVec n := w.extractLsb' lo n

/-- The register that the bits of a 3-bit field name, most significant first (00_scope.md R14). -/
def Reg.ofBits : Bool → Bool → Bool → Reg
  | false, false, false => .r0
  | false, false, true  => .r1
  | false, true,  false => .r2
  | false, true,  true  => .r3
  | true,  false, false => .r4
  | true,  false, true  => .r5
  | true,  true,  false => .r6
  | true,  true,  true  => .r7

/-- The 3-bit number of a register. -/
def Reg.bits : Reg → BitVec 3
  | .r0 => 0b000
  | .r1 => 0b001
  | .r2 => 0b010
  | .r3 => 0b011
  | .r4 => 0b100
  | .r5 => 0b101
  | .r6 => 0b110
  | .r7 => 0b111

/-- The register in the 3-bit field whose lowest bit is `lo`. -/
def regField (w : Word) (lo : Nat) : Reg := Reg.ofBits (bit w (lo + 2)) (bit w (lo + 1)) (bit w lo)

/-- The 16 opcodes (30_encoding.md R92). Opcode 0100 is `jsr`: bit 11 tells JSR from JSRR. -/
inductive Opcode where
  | br | add | ld | st | jsr | and | ldr | str | rti | not | ldi | sti | jmp | res | lea | trap
  deriving DecidableEq, Repr

/-- The number of an opcode (30_encoding.md R92). -/
def Opcode.bits : Opcode → BitVec 4
  | .br   => 0b0000
  | .add  => 0b0001
  | .ld   => 0b0010
  | .st   => 0b0011
  | .jsr  => 0b0100
  | .and  => 0b0101
  | .ldr  => 0b0110
  | .str  => 0b0111
  | .rti  => 0b1000
  | .not  => 0b1001
  | .ldi  => 0b1010
  | .sti  => 0b1011
  | .jmp  => 0b1100
  | .res  => 0b1101
  | .lea  => 0b1110
  | .trap => 0b1111

/-- The opcode in bits 15 to 12, most significant first (30_encoding.md R91, R92). -/
def Opcode.ofBits : Bool → Bool → Bool → Bool → Opcode
  | false, false, false, false => .br
  | false, false, false, true  => .add
  | false, false, true,  false => .ld
  | false, false, true,  true  => .st
  | false, true,  false, false => .jsr
  | false, true,  false, true  => .and
  | false, true,  true,  false => .ldr
  | false, true,  true,  true  => .str
  | true,  false, false, false => .rti
  | true,  false, false, true  => .not
  | true,  false, true,  false => .ldi
  | true,  false, true,  true  => .sti
  | true,  true,  false, false => .jmp
  | true,  true,  false, true  => .res
  | true,  true,  true,  false => .lea
  | true,  true,  true,  true  => .trap

/-- `op <- instr[15:12]` (40_fetch_execute.md R124). -/
def opcodeOf (w : Word) : Opcode := Opcode.ofBits (bit w 15) (bit w 14) (bit w 13) (bit w 12)

/-- The instruction that a word is (40_fetch_execute.md R124, R127; formats 30_encoding.md R94 to R104).
The bits that R106 names are not looked at (DEDUCED in the spec, D3; UNVERIFIED, unsafe, notes/assumptions/16.md). -/
def decode (w : Word) : Instr :=
  match opcodeOf w with
  | .br   => .br (bit w 11) (bit w 10) (bit w 9) (field w 0 9)
  | .add  => if bit w 5 then .addImm (regField w 9) (regField w 6) (field w 0 5)
             else .addReg (regField w 9) (regField w 6) (regField w 0)
  | .ld   => .ld (regField w 9) (field w 0 9)
  | .st   => .st (regField w 9) (field w 0 9)
  | .jsr  => if bit w 11 then .jsr (field w 0 11) else .jsrr (regField w 6)
  | .and  => if bit w 5 then .andImm (regField w 9) (regField w 6) (field w 0 5)
             else .andReg (regField w 9) (regField w 6) (regField w 0)
  | .ldr  => .ldr (regField w 9) (regField w 6) (field w 0 6)
  | .str  => .str (regField w 9) (regField w 6) (field w 0 6)
  | .rti  => .rti
  | .not  => .not (regField w 9) (regField w 6)
  | .ldi  => .ldi (regField w 9) (field w 0 9)
  | .sti  => .sti (regField w 9) (field w 0 9)
  | .jmp  => .jmp (regField w 6)
  | .res  => .res
  | .lea  => .lea (regField w 9) (field w 0 9)
  | .trap => .trap (field w 0 8)

/-- The instruction of a word whose bits are numbered as spec/opcode_table.json numbers them. Every instruction is one
16-bit word (30_encoding.md R90), so bits from `nbits` up are 0 and a longer row is no instruction of this machine. -/
def decodeTableWord (nbits w : Nat) : Option Instr :=
  if nbits ≤ 16 then some (decode (BitVec.ofNat 16 (w % 2 ^ nbits))) else none

/-- The word of an instruction, each format written out from its table, with the value a standard assembler writes into
the ignored bits (30_encoding.md R94 to R104, R114; RES has no assembler form, and 0 stands there). -/
def encode : Instr → Word
  | .addReg dr sr1 sr2   => 0b0001#4 ++ dr.bits ++ sr1.bits ++ 0b0#1 ++ 0b00#2 ++ sr2.bits
  | .addImm dr sr1 imm5  => 0b0001#4 ++ dr.bits ++ sr1.bits ++ 0b1#1 ++ imm5
  | .andReg dr sr1 sr2   => 0b0101#4 ++ dr.bits ++ sr1.bits ++ 0b0#1 ++ 0b00#2 ++ sr2.bits
  | .andImm dr sr1 imm5  => 0b0101#4 ++ dr.bits ++ sr1.bits ++ 0b1#1 ++ imm5
  | .not dr sr           => 0b1001#4 ++ dr.bits ++ sr.bits ++ 0b111111#6
  | .br n z p off9       => 0b0000#4 ++ BitVec.ofBool n ++ BitVec.ofBool z ++ BitVec.ofBool p ++ off9
  | .jmp base            => 0b1100#4 ++ 0b000#3 ++ base.bits ++ 0b000000#6
  | .jsr off11           => 0b0100#4 ++ 0b1#1 ++ off11
  | .jsrr base           => 0b0100#4 ++ 0b0#1 ++ 0b00#2 ++ base.bits ++ 0b000000#6
  | .ld dr off9          => 0b0010#4 ++ dr.bits ++ off9
  | .ldi dr off9         => 0b1010#4 ++ dr.bits ++ off9
  | .ldr dr base off6    => 0b0110#4 ++ dr.bits ++ base.bits ++ off6
  | .lea dr off9         => 0b1110#4 ++ dr.bits ++ off9
  | .st sr off9          => 0b0011#4 ++ sr.bits ++ off9
  | .sti sr off9         => 0b1011#4 ++ sr.bits ++ off9
  | .str sr base off6    => 0b0111#4 ++ sr.bits ++ base.bits ++ off6
  | .trap vect8          => 0b1111#4 ++ 0b0000#4 ++ vect8
  | .rti                 => 0b1000#4 ++ 0b000000000000#12
  | .res                 => 0b1101#4 ++ 0b000000000000#12

/-- A row of spec/opcode_table.json: a word is of the row when its bits under `mask` are `pattern`. -/
structure OpcodeRow where
  mask : Word
  pattern : Word
  deriving DecidableEq, Repr

/-- A word is of a row. -/
def rowMatches (row : OpcodeRow) (w : Word) : Bool := w &&& row.mask == row.pattern

/-- The row of an instruction, `mask` and `match` as spec/opcode_table.json gives them. -/
def rowOf : Instr → OpcodeRow
  | .addReg _ _ _  => ⟨0xF020, 0x1000⟩
  | .addImm _ _ _  => ⟨0xF020, 0x1020⟩
  | .andReg _ _ _  => ⟨0xF020, 0x5000⟩
  | .andImm _ _ _  => ⟨0xF020, 0x5020⟩
  | .not _ _       => ⟨0xF000, 0x9000⟩
  | .br _ _ _ _    => ⟨0xF000, 0x0000⟩
  | .jmp _         => ⟨0xF000, 0xC000⟩
  | .jsr _         => ⟨0xF800, 0x4800⟩
  | .jsrr _        => ⟨0xF800, 0x4000⟩
  | .ld _ _        => ⟨0xF000, 0x2000⟩
  | .ldi _ _       => ⟨0xF000, 0xA000⟩
  | .ldr _ _ _     => ⟨0xF000, 0x6000⟩
  | .lea _ _       => ⟨0xF000, 0xE000⟩
  | .st _ _        => ⟨0xF000, 0x3000⟩
  | .sti _ _       => ⟨0xF000, 0xB000⟩
  | .str _ _ _     => ⟨0xF000, 0x7000⟩
  | .trap _        => ⟨0xF000, 0xF000⟩
  | .rti           => ⟨0xF000, 0x8000⟩
  | .res           => ⟨0xF000, 0xD000⟩

/-- The bits that the decoder ignores for an instruction (30_encoding.md R106). -/
def ignoredBits : Instr → Word
  | .addReg _ _ _ | .andReg _ _ _ => 0b0000000000011000
  | .not _ _                      => 0b0000000000111111
  | .jmp _                        => 0b0000111000111111
  | .jsrr _                       => 0b0000011000111111
  | .trap _                       => 0b0000111100000000
  | .rti | .res                   => 0b0000111111111111
  | .addImm _ _ _ | .andImm _ _ _ | .br _ _ _ _ | .jsr _ | .ld _ _ | .ldi _ _ | .ldr _ _ _ | .lea _ _
  | .st _ _ | .sti _ _ | .str _ _ _ => 0

end Sys2Proof
end

