-- ==== Sys2Proof/Machine/Bits.lean ====
section
/-! DEFINITION. Widening a field to 16 bits and taking a word's bytes (00_scope.md R9, R11, R12). -/

namespace Sys2Proof.Machine

/-- `sext_N(f)` (00_scope.md R11): bits N-1 to 0 are the field, bits 15 to N each its top bit. -/
def sext {n : Nat} (f : BitVec n) : Word := f.signExtend 16

/-- `zext_N(f)` (00_scope.md R12): the bits above the field are zero. -/
def zext {n : Nat} (f : BitVec n) : Word := f.setWidth 16

/-- `w[7:0]`. -/
def lowByte (w : Word) : Byte := w.extractLsb' 0 8

/-- `w[15:8]`. -/
def highByte (w : Word) : Byte := w.extractLsb' 8 8

end Sys2Proof.Machine
end

