-- ==== Sys2Proof/Config.lean ====
section
/-! DEFINITION. What an implementation fixes: the parameters of 00_scope.md R8 that no step of the machine changes, and the
launch values the model names. A parameter that the spec leaves OPEN is an opaque constant (no value of it can be proved);
one for which the spec gives a default, a convention or a decision has that value. State holds the parameters as plain data
(`Params`), so that every statement about all states is a statement about all values of them (notes/assumptions/11.md). -/

namespace Sys2Proof

/-- `TRAP_IN_FLAGS` (00_scope.md R8, 44_trap.md R211): whether GETC and IN set COND from R0. -/
inductive TrapInFlags where
  | update
  | preserve
  deriving DecidableEq, Repr, Inhabited

/-- `UNKNOWN_TRAP` (00_scope.md R8, 44_trap.md R208): what a TRAP with an unknown vector does. -/
inductive UnknownTrap where
  | nop
  | fault
  deriving DecidableEq, Repr, Inhabited

/-- The parameters of 00_scope.md R8 that stay fixed while the machine runs. -/
structure Params where
  /-- The keyboard status register's address (20_memory.md R62). -/
  kbsrAddr : Word
  /-- The keyboard data register's address (20_memory.md R62). -/
  kbdrAddr : Word
  /-- The input word that end of input or a console failure gives (20_memory.md R69, D7). -/
  eofWord : Word
  trapInFlags : TrapInFlags
  unknownTrap : UnknownTrap
  /-- The prompt that IN writes (44_trap.md R205, D18). -/
  inPrompt : List Byte
  /-- The notice that HALT writes (44_trap.md R207, D18). -/
  haltNotice : List Byte
  deriving DecidableEq, Repr

/-- `EOF_WORD` is OPEN (D7): a free value. DESIGN CHOICE, safe (notes/assumptions/12.md). -/
opaque Config.eofWord : Word

/-- `TRAP_IN_FLAGS` is OPEN (D13): a free value. DESIGN CHOICE, safe (notes/assumptions/13.md). -/
opaque Config.trapInFlags : TrapInFlags

/-- `IN_PROMPT` is OPEN (D18): a free value. DESIGN CHOICE, safe (notes/assumptions/15.md). -/
opaque Config.inPrompt : List Byte

/-- `HALT_NOTICE` is OPEN (D18): a free value. DESIGN CHOICE, safe (notes/assumptions/15.md). -/
opaque Config.haltNotice : List Byte

/-- The parameters of the machine that `State.reset` is. The two addresses are the spec's defaults (20_memory.md R62, D5),
UNVERIFIED and unsafe (notes/assumptions/3.md); `UNKNOWN_TRAP` is the spec's decision (D14), UNVERIFIED and unsafe
(notes/assumptions/14.md). -/
def Config.params : Params where
  kbsrAddr := 0xFE00
  kbdrAddr := 0xFE02
  eofWord := Config.eofWord
  trapInFlags := Config.trapInFlags
  unknownTrap := .nop
  inPrompt := Config.inPrompt
  haltNotice := Config.haltNotice

/-- `PC_START`: the spec's convention (10_state.md R45). UNVERIFIED, unsafe (notes/assumptions/5.md). -/
def Config.pcStart : Word := 0x3000

/-- The launch value of R0 to R7. The spec gives none (10_state.md R44).
DESIGN CHOICE, unsafe (notes/assumptions/4.md). -/
def Config.gprInit : Word := 0x0000

end Sys2Proof
end

