-- ==== Sys2Proof/Machine/State.lean ====
section
/-! DEFINITION. The state of the core (10_state.md, 20_memory.md), of its console interface (10_state.md R51, R55, R56) and
of its host interface (R53), as plain data; the state right after reset; and the ways a step can stop.
Every operation on it stands in Machine/Ops.lean. -/

namespace Sys2Proof.Machine

/-- The eight general registers (10_state.md R30). -/
structure RegFile where
  r0 : Word
  r1 : Word
  r2 : Word
  r3 : Word
  r4 : Word
  r5 : Word
  r6 : Word
  r7 : Word
  deriving DecidableEq, Repr

/-- The condition code: exactly one of three states (10_state.md R35). -/
inductive Cond where
  | neg
  | zro
  | pos
  deriving DecidableEq, Repr

/-- One listed cell: its address and its 16-bit contents. The cell is the smallest addressable unit of this machine: it has
no bytes (20_memory.md R60, R66, R71). DEDUCED, safe (notes/assumptions/2.md). -/
abbrev MemCell := Nat × Word

/-- Memory: the cells whose contents differ from what an unlisted address reads as, addresses strictly rising. -/
abbrev Memory := List MemCell

/-- What a cell that is not listed reads as. The spec leaves the launch contents open (10_state.md R47, D11).
DESIGN CHOICE, unsafe (notes/assumptions/7.md). -/
def Memory.background : Word := 0x0000

/-- The canonical form: addresses strictly rising and inside the address space (20_memory.md R60), and no entry equal to
what an unlisted address reads as. -/
abbrev Memory.wf (m : Memory) : Prop :=
  m.Pairwise (fun x y => x.1 < y.1) ∧ ∀ c ∈ m, c.1 < 65536 ∧ c.2 ≠ Memory.background

/-- Why the core faulted, with the value recorded (60_exceptions.md R242, R244). `FaultCause.code` gives the cause's code and
`FaultCause.value` the value as a word. -/
inductive FaultCause where
  /-- Raised by RTI and RES; the value is the opcode. -/
  | illegalOpcode (op : BitVec 4)
  /-- Raised by TRAP with an unknown vector under `UNKNOWN_TRAP = fault`; the value is the vector. -/
  | unknownTrap (vector : Byte)
  deriving DecidableEq, Repr

/-- The record that the faulted state carries for observation only; no rule reads it (60_exceptions.md R242). -/
structure FaultRecord where
  cause : FaultCause
  pcOfInstruction : Word
  instr : Word
  deriving DecidableEq, Repr

/-- The engine's run state (10_state.md R40). All but `running` are terminal. -/
inductive RunState where
  | running
  /-- Entered by the HALT trap service. -/
  | halted
  /-- Entered by an illegal opcode, or by an unknown trap vector under `UNKNOWN_TRAP = fault`. -/
  | faulted (record : FaultRecord)
  /-- Entered by a host cancellation honoured at a cycle boundary. -/
  | cancelled
  deriving DecidableEq, Repr

/-- The trap service whose blocking `console.read()` the core is suspended in (40_fetch_execute.md R129, 70_reset_and_hazards.md
R280). DEDUCED, safe (notes/assumptions/10.md). -/
inductive Waiting where
  /-- GETC (44_trap.md R202). -/
  | getc
  /-- IN, whose prompt is already written (44_trap.md R205). -/
  | inp
  deriving DecidableEq, Repr

/-- One coming answer of the console (10_state.md R51, R55, 92_eei_decisions.md D7, D8).
DESIGN CHOICE, safe (notes/assumptions/8.md). -/
inductive InputEvent where
  /-- An input byte is there: a poll says ready, a read takes it. -/
  | byte (b : Byte)
  /-- End of input or a console failure is there: a poll says ready, a read takes `EOF_WORD`. -/
  | eof
  /-- The next poll says not ready, and that poll uses this answer up; a blocking read waits past it. -/
  | notReady
  deriving DecidableEq, Repr

/-- What `console.read()` does once every listed answer is used up (10_state.md R55). -/
inductive WhenEmpty where
  /-- It does not return. -/
  | blocks
  /-- It returns `EOF_WORD` ("A script may instead end with `EOF_WORD` answers"). -/
  | eof
  deriving DecidableEq, Repr

/-- One console output operation of the core (10_state.md R51). Only the bytes are observed (R56). -/
inductive OutEvent where
  | byte (b : Byte)
  | flush
  deriving DecidableEq, Repr

/-- The state of the machine. -/
structure State where
  /-- R0 to R7 (10_state.md R30). -/
  regs : RegFile
  /-- The program counter (10_state.md R33). -/
  pc : Word
  /-- The condition code (10_state.md R35). -/
  cond : Cond
  /-- The 65536 cells, KBSR and KBDR among them (20_memory.md R60, R62). -/
  mem : Memory
  /-- The run state, with the fault record (10_state.md R40, 60_exceptions.md R242). -/
  run : RunState
  /-- The host's cancellation request (10_state.md R42). -/
  cancelReq : Bool
  /-- `instr`, the word that the cycle fetched (40_fetch_execute.md R122); only the fault record reads it. -/
  ir : Word
  /-- The blocking read the core is inside, if any (40_fetch_execute.md R129). -/
  waiting : Option Waiting
  /-- The console's coming answers, the next one first (10_state.md R43, R51, R55). The model's own field. -/
  input : List InputEvent
  /-- What a read does when `input` is used up (10_state.md R55). The model's own field. -/
  whenEmpty : WhenEmpty
  /-- What the core has sent to the console, the oldest first (10_state.md R56, 00_scope.md R18). -/
  output : List OutEvent
  /-- The parameters of the machine (00_scope.md R8). The model's own field; no step changes it. -/
  params : Params
  deriving DecidableEq, Repr

/-- The machine right after reset, which is the launch of 70_reset_and_hazards.md R270. The spec states the run state
(R48) and `cancel_req` (R49); the other values are the ones that notes/assumptions/ 4 to 15 name. -/
def State.reset : State where
  regs := ⟨Config.gprInit, Config.gprInit, Config.gprInit, Config.gprInit,
           Config.gprInit, Config.gprInit, Config.gprInit, Config.gprInit⟩
  pc := Config.pcStart
  -- `COND_INIT` is OPEN (10_state.md R46): DESIGN CHOICE, unsafe (notes/assumptions/6.md).
  cond := .zro
  mem := []
  run := .running
  cancelReq := false
  -- No word is fetched yet: DESIGN CHOICE, unsafe (notes/assumptions/9.md).
  ir := 0x0000
  waiting := none
  input := []
  whenEmpty := .blocks
  output := []
  params := Config.params

/-- Why a step has no next state: the run has ended. "A terminal state has no step" (40_fetch_execute.md R130). -/
inductive Fault where
  /-- Raised by `step` in the run state `halted`. Safe: the spec gives no step (R126). -/
  | stoppedHalted
  /-- Raised by `step` in the run state `faulted`; repeats the record. Safe: the spec gives no step (R126). -/
  | stoppedFaulted (record : FaultRecord)
  /-- Raised by `step` in the run state `cancelled`. Safe: the spec gives no step (R126). -/
  | stoppedCancelled
  deriving DecidableEq, Repr

/-- Why the model gives a step no meaning. -/
inductive Refusal where
  /-- Raised by an arm of `exec` whose instruction has no meaning yet. No arm does so now. Safe. -/
  | notModelled (mnemonic : String)
  /-- Raised by the PUTS and PUTSP services when their scan reaches `KBSR_ADDR`: the spec refuses that step
  (44_trap.md R209, D17). Safe. -/
  | scanReachesKbsr
  deriving DecidableEq, Repr

end Sys2Proof.Machine
end

