-- ==== Sys2Proof/Machine/Ops.lean ====
section
/-! DEFINITION. The named operations on the state: registers, memory cells, the console primitives (00_scope.md R18), MemRead
and MemWrite (20_memory.md R63, R64), fetching, entering a fault (60_exceptions.md R241) and honouring a cancellation
(40_fetch_execute.md R121). There is no return from a fault (60_exceptions.md R250). -/

namespace Sys2Proof.Machine

/-! ### Registers and the other fields -/

/-- `x[i]` in a register file. -/
def RegFile.get (f : RegFile) : Reg → Word
  | .r0 => f.r0
  | .r1 => f.r1
  | .r2 => f.r2
  | .r3 => f.r3
  | .r4 => f.r4
  | .r5 => f.r5
  | .r6 => f.r6
  | .r7 => f.r7

/-- A register file with one register replaced. No register is hardwired (10_state.md R30). -/
def RegFile.set (f : RegFile) (r : Reg) (v : Word) : RegFile :=
  match r with
  | .r0 => { f with r0 := v }
  | .r1 => { f with r1 := v }
  | .r2 => { f with r2 := v }
  | .r3 => { f with r3 := v }
  | .r4 => { f with r4 := v }
  | .r5 => { f with r5 := v }
  | .r6 => { f with r6 := v }
  | .r7 => { f with r7 := v }

/-- `x[i]` (00_scope.md R14). -/
def State.reg (s : State) (r : Reg) : Word := s.regs.get r

/-- `x[i] <- v` (00_scope.md R14). -/
def State.setReg (s : State) (r : Reg) (v : Word) : State := { s with regs := s.regs.set r v }

/-- `pc <- v` (00_scope.md R14). -/
def State.setPc (s : State) (v : Word) : State := { s with pc := v }

/-- `cond <- c` (00_scope.md R14). -/
def State.setCond (s : State) (c : Cond) : State := { s with cond := c }

/-- `stop with r` (00_scope.md R19): the run state becomes `r`. -/
def State.setRun (s : State) (r : RunState) : State := { s with run := r }

/-- The core enters or leaves a blocking read (40_fetch_execute.md R129). -/
def State.setWaiting (s : State) (w : Option Waiting) : State := { s with waiting := w }

/-- The fetched word is latched (40_fetch_execute.md R122). -/
def State.setIr (s : State) (w : Word) : State := { s with ir := w }

/-- The console's coming answers are replaced. -/
def State.setInput (s : State) (i : List InputEvent) : State := { s with input := i }

/-! ### Memory cells -/

/-- The contents at an address: the listed cell, or the background. -/
def Memory.read : Memory → Nat → Word
  | [], _ => Memory.background
  | (k, v) :: m, a => if k = a then v else Memory.read m a

/-- Memory with nothing listed at an address. -/
def Memory.erase : Memory → Nat → Memory
  | [], _ => []
  | (k, v) :: m, a => if k = a then Memory.erase m a else (k, v) :: Memory.erase m a

/-- Memory with a cell put before the first larger address. -/
def Memory.insert : Memory → Nat → Word → Memory
  | [], a, v => [(a, v)]
  | (k, w) :: m, a, v => if a < k then (a, v) :: (k, w) :: m else (k, w) :: Memory.insert m a v

/-- Memory with a cell written, in canonical form: writing the background unlists the cell. -/
def Memory.write (m : Memory) (a : Nat) (v : Word) : Memory :=
  if v = Memory.background then m.erase a else (m.erase a).insert a v

/-- `Cell[a]` (00_scope.md R15): the stored contents, with no side effect. Every address exists (20_memory.md R61). -/
def State.cell (s : State) (a : Word) : Word := s.mem.read a.toNat

/-- `Cell[a] <- v`. -/
def State.setCell (s : State) (a v : Word) : State := { s with mem := s.mem.write a.toNat v }

/-! ### The console (10_state.md R51, 00_scope.md R18) -/

/-- `console.poll()`: whether input is ready. It never blocks (70_reset_and_hazards.md R279); a `notReady` answer is used up. -/
def consolePoll (s : State) : Bool × State :=
  match s.input with
  | [] => (false, s)
  | .notReady :: rest => (false, s.setInput rest)
  | .byte _ :: _ => (true, s)
  | .eof :: _ => (true, s)

/-- The answers that are left once a blocking read has waited past the `notReady` ones before the next input. -/
def inputAfterWait : List InputEvent → List InputEvent
  | .notReady :: rest => inputAfterWait rest
  | events => events

/-- `console.read()`: the input word (a byte zero-extended, or `EOF_WORD`: D7) and the state with it taken;
`none` when the read does not return. -/
def consoleRead (s : State) : Option (Word × State) :=
  match inputAfterWait s.input with
  | .byte b :: rest => some (zext b, s.setInput rest)
  | .eof :: rest => some (s.params.eofWord, s.setInput rest)
  | _ =>
    match s.whenEmpty with
    | .blocks => none
    | .eof => some (s.params.eofWord, s.setInput [])

/-- Output operations are recorded in the order the core issues them (10_state.md R56). -/
def State.emit (s : State) (es : List OutEvent) : State := { s with output := s.output ++ es }

/-- `console.write(b)`. -/
def State.writeByte (s : State) (b : Byte) : State := s.emit [.byte b]

/-- `for each byte b of bs: console.write(b)`. -/
def State.writeBytes (s : State) (bs : List Byte) : State := s.emit (bs.map .byte)

/-- `console.flush()`: a flush is recorded (00_scope.md R18). -/
def State.flush (s : State) : State := s.emit [.flush]

/-! ### MemRead and MemWrite -/

/-- What a read of `KBSR_ADDR` does before it returns the cell (20_memory.md R63): ready, KBSR becomes 0x8000 (D6) and KBDR
the input word; not ready, KBSR becomes 0 and KBDR stays. The read after a ready poll always returns. -/
def pollKeyboard (s : State) : State :=
  match consolePoll s with
  | (true, s1) =>
    let s2 := s1.setCell s1.params.kbsrAddr 0x8000
    match consoleRead s2 with
    | some (w, s3) => s3.setCell s3.params.kbdrAddr w
    | none => s2
  | (false, s1) => s1.setCell s1.params.kbsrAddr 0x0000

/-- `MemRead(a, 1)` (20_memory.md R63): the value read and the state after the read's side effect. -/
def memRead (a : Word) (s : State) : Word × State :=
  if a = s.params.kbsrAddr then ((pollKeyboard s).cell a, pollKeyboard s) else (s.cell a, s)

/-- `MemWrite(a, 1, v)` (20_memory.md R64): a plain store, at the device addresses too. -/
def memWrite (a v : Word) (s : State) : State := s.setCell a v

/-! ### Fetch, fault entry, cancellation -/

/-- The fetch and the increment of the cycle (40_fetch_execute.md R122, R123): the word read at `pc` is in `ir`,
and `pc` is one further. -/
def fetch (s : State) : State :=
  let r := memRead s.pc s
  (r.2.setIr r.1).setPc (s.pc + 1)

/-- Fault entry (60_exceptions.md R241, R242, R243): the run state becomes `faulted` with the record, and nothing else
changes. `pc` is already past the instruction. -/
def raiseFault (cause : FaultCause) (s : State) : State :=
  s.setRun (.faulted ⟨cause, s.pc - 1, s.ir⟩)

/-- The cause code that the spec assigns (60_exceptions.md R244). -/
def FaultCause.code : FaultCause → Nat
  | .illegalOpcode _ => 1
  | .unknownTrap _ => 2

/-- The value recorded with the cause: the opcode or the vector (60_exceptions.md R242, R244). -/
def FaultCause.value : FaultCause → Word
  | .illegalOpcode op => zext op
  | .unknownTrap v => zext v

/-- A pending cancellation is honoured at a cycle boundary (40_fetch_execute.md R121). -/
def honourCancel (s : State) : State := s.setRun .cancelled

end Sys2Proof.Machine
end

