-- ==== Sys2Proof/Machine/Flags.lean ====
section
/-! DEFINITION. The condition code: the one flag computation of the machine (10_state.md R36), and the one reader of COND,
BR's test (42_control.md R160). -/

namespace Sys2Proof.Machine

/-- The state of COND for a value (10_state.md R36). -/
def condOf (v : Word) : Cond :=
  if v = 0x0000 then .zro else if v.getLsbD 15 then .neg else .pos

/-- `SetCC(v)` (00_scope.md R16, 10_state.md R36). -/
def setCC (v : Word) (s : State) : State := s.setCond (condOf v)

/-- Whether BR's mask selects the condition code (42_control.md R160). -/
def branchTaken (n z p : Bool) (c : Cond) : Bool :=
  (n && c == .neg) || (z && c == .zro) || (p && c == .pos)

end Sys2Proof.Machine
end

