-- ==== Sys2Proof/Machine/Operands.lean ====
section
/-! DEFINITION. The operand forms: the four addressing modes (43_load_store.md R187; the register mode is `State.reg`), and
writing a result to a destination register with its flags. -/

namespace Sys2Proof.Machine

/-- PC-relative: `pc + sext(off)`, with `pc` already incremented (43_load_store.md R187; 42_control.md R160, R162). -/
def pcRelative {n : Nat} (off : BitVec n) (s : State) : Word := s.pc + sext off

/-- Base + offset: `x[BaseR] + sext_6(off)` (43_load_store.md R187). -/
def baseOffset (base : Reg) (off6 : BitVec 6) (s : State) : Word := s.reg base + sext off6

/-- Indirect: `MemRead(pc + sext_9(off), 1)`, the pointer and the state after its read (43_load_store.md R187). -/
def indirect (off9 : BitVec 9) (s : State) : Word × State := memRead (pcRelative off9 s) s

/-- `x[DR] <- v; SetCC(v)` (10_state.md R37). -/
def writeResult (dr : Reg) (v : Word) (s : State) : State := setCC v (s.setReg dr v)

/-- `v <- MemRead(ea, 1); x[DR] <- v; SetCC(v)`, the end of every load. -/
def loadFrom (dr : Reg) (ea : Word) (s : State) : State :=
  let r := memRead ea s
  writeResult dr r.1 r.2

end Sys2Proof.Machine
end

