-- ==== Sys2Proof/Machine/Control.lean ====
section
/-! DEFINITION. Control transfer: BR, JMP, JSR and JSRR (42_control.md). Every 16-bit target is legal (R164); no delay slots
(R166); none writes COND (10_state.md R37, 90_conflicts.md C2). -/

namespace Sys2Proof.Machine

/-- `BR{n}{z}{p} PCoffset9` (42_control.md R160). -/
def execBr (n z p : Bool) (off9 : BitVec 9) (s : State) : Host.Outcome State Fault Refusal :=
  .next (if branchTaken n z p s.cond then s.setPc (pcRelative off9 s) else s)

/-- `JMP BaseR` (42_control.md R161). -/
def execJmp (base : Reg) (s : State) : Host.Outcome State Fault Refusal :=
  .next (s.setPc (s.reg base))

/-- `JSR PCoffset11` (42_control.md R162). -/
def execJsr (off11 : BitVec 11) (s : State) : Host.Outcome State Fault Refusal :=
  .next ((s.setReg .r7 s.pc).setPc (pcRelative off11 s))

/-- `JSRR BaseR` (42_control.md R163): BaseR is read after R7 is written, the spec's decision D15.
UNVERIFIED, unsafe for `JSRR R7` (notes/assumptions/17.md). -/
def execJsrr (base : Reg) (s : State) : Host.Outcome State Fault Refusal :=
  let linked := s.setReg .r7 s.pc
  .next (linked.setPc (linked.reg base))

end Sys2Proof.Machine
end

