-- ==== Sys2Proof/Machine/Illegal.lean ====
section
/-! DEFINITION. The two illegal opcodes, RTI and RES (45_illegal.md): each raises IllegalOpcode (60_exceptions.md R241). -/

namespace Sys2Proof.Machine

/-- `RTI` (45_illegal.md R230): `raise IllegalOpcode(0x8)`. -/
def execRti (s : State) : Host.Outcome State Fault Refusal := .next (raiseFault (.illegalOpcode 0x8) s)

/-- `RES` (45_illegal.md R231): `raise IllegalOpcode(0xD)`. -/
def execRes (s : State) : Host.Outcome State Fault Refusal := .next (raiseFault (.illegalOpcode 0xD) s)

end Sys2Proof.Machine
end

