-- ==== Sys2Proof/Machine/LoadStore.lean ====
section
/-! DEFINITION. Loads and stores: LD, LDI, LDR, LEA, ST, STI and STR (43_load_store.md). Every read is a MemRead, so it polls
the keyboard at `KBSR_ADDR` (20_memory.md R63); no base register changes (R188). -/

namespace Sys2Proof.Machine

/-- `LD DR, PCoffset9` (43_load_store.md R180). -/
def execLd (dr : Reg) (off9 : BitVec 9) (s : State) : Host.Outcome State Fault Refusal :=
  .next (loadFrom dr (pcRelative off9 s) s)

/-- `LDI DR, PCoffset9` (43_load_store.md R181): the pointer is read first, then the operand. -/
def execLdi (dr : Reg) (off9 : BitVec 9) (s : State) : Host.Outcome State Fault Refusal :=
  let p := indirect off9 s
  .next (loadFrom dr p.1 p.2)

/-- `LDR DR, BaseR, #offset6` (43_load_store.md R182). -/
def execLdr (dr base : Reg) (off6 : BitVec 6) (s : State) : Host.Outcome State Fault Refusal :=
  .next (loadFrom dr (baseOffset base off6 s) s)

/-- `LEA DR, PCoffset9` (43_load_store.md R183): the address itself, with no memory access. -/
def execLea (dr : Reg) (off9 : BitVec 9) (s : State) : Host.Outcome State Fault Refusal :=
  .next (writeResult dr (pcRelative off9 s) s)

/-- `ST SR, PCoffset9` (43_load_store.md R184). -/
def execSt (sr : Reg) (off9 : BitVec 9) (s : State) : Host.Outcome State Fault Refusal :=
  .next (memWrite (pcRelative off9 s) (s.reg sr) s)

/-- `STI SR, PCoffset9` (43_load_store.md R185): the pointer read may poll. -/
def execSti (sr : Reg) (off9 : BitVec 9) (s : State) : Host.Outcome State Fault Refusal :=
  let p := indirect off9 s
  .next (memWrite p.1 (p.2.reg sr) p.2)

/-- `STR SR, BaseR, #offset6` (43_load_store.md R186). -/
def execStr (sr base : Reg) (off6 : BitVec 6) (s : State) : Host.Outcome State Fault Refusal :=
  .next (memWrite (baseOffset base off6 s) (s.reg sr) s)

end Sys2Proof.Machine
end

