-- ==== Sys2Proof/Machine/Trap.lean ====
section
/-! DEFINITION. TRAP and the trap service dispatcher (44_trap.md). TRAP saves no link and changes no mode (R200, R210); each
service runs inside the TRAP's own cycle. A blocking read that does not return leaves the core inside the service
(40_fetch_execute.md R129, R130): the state then says which service waits, and `resumeWait` goes on with it. -/

namespace Sys2Proof.Machine

/-- The services (44_trap.md R201). -/
inductive TrapService where
  | getc | out | puts | inp | putsp | halt | unknown
  deriving DecidableEq, Repr

/-- `Service(v)` dispatches on the 8-bit vector (44_trap.md R201). -/
def trapService (v : Byte) : TrapService :=
  if v = 0x20 then .getc
  else if v = 0x21 then .out
  else if v = 0x22 then .puts
  else if v = 0x23 then .inp
  else if v = 0x24 then .putsp
  else if v = 0x25 then .halt
  else .unknown

/-- `x[0] <- w`, and `SetCC(w)` only under `TRAP_IN_FLAGS = update` (44_trap.md R202, R205, R211). -/
def writeInputWord (w : Word) (s : State) : State :=
  match s.params.trapInFlags with
  | .update => setCC w (s.setReg .r0 w)
  | .preserve => s.setReg .r0 w

/-- GETC (44_trap.md R202). It blocks while the console supplies no input. -/
def serviceGetc (s : State) : Host.Outcome State Fault Refusal :=
  match consoleRead s with
  | some (w, s1) => .next (writeInputWord w (s1.setWaiting none))
  | none => .next (s.setWaiting (some .getc))

/-- OUT (44_trap.md R203): the low byte of R0, then a flush. -/
def serviceOut (s : State) : Host.Outcome State Fault Refusal :=
  .next (s.writeByte (lowByte (s.reg .r0))).flush

/-- `ScanRead(a)` (44_trap.md R209): the stored cell; `none` at `KBSR_ADDR`, where the model refuses the step. -/
def scanRead (a : Word) (s : State) : Option Word :=
  if a = s.params.kbsrAddr then none else some (s.cell a)

/-- The scan of PUTS and PUTSP from an address, `fuel` cells at most: the bytes to write up to the first cell that `ends`
it, or `none` when it reaches `KBSR_ADDR`. Addresses wrap (44_trap.md R204, R206, D16). A scan of 65536 cells always ends
in one of the two ways (R209), so the case without fuel is not reached from there. -/
def scan (ends : Word → Bool) (chars : Word → List Byte) (s : State) : Nat → Word → Option (List Byte)
  | 0, _ => none
  | fuel + 1, a =>
    match scanRead a s with
    | none => none
    | some w => if ends w then some [] else (scan ends chars s fuel (a + 1)).map (chars w ++ ·)

/-- PUTS ends at the first cell whose whole value is zero (44_trap.md R204). -/
def putsEnds (w : Word) : Bool := w == 0x0000

/-- PUTS writes the low byte of a cell (44_trap.md R204). -/
def putsChars (w : Word) : List Byte := [lowByte w]

/-- PUTSP ends at the first cell whose low byte is zero (44_trap.md R206). -/
def putspEnds (w : Word) : Bool := lowByte w == 0x00

/-- PUTSP writes the low byte of a cell, then its high byte unless that is zero (44_trap.md R206). -/
def putspChars (w : Word) : List Byte :=
  if highByte w = 0x00 then [lowByte w] else [lowByte w, highByte w]

/-- The shared body of PUTS and PUTSP: scan from R0, write the bytes, flush; refused where the scan reaches `KBSR_ADDR`. -/
def writeString (ends : Word → Bool) (chars : Word → List Byte) (s : State) : Host.Outcome State Fault Refusal :=
  match scan ends chars s 65536 (s.reg .r0) with
  | some bs => .next (s.writeBytes bs).flush
  | none => .refused .scanReachesKbsr

/-- PUTS (44_trap.md R204). -/
def servicePuts (s : State) : Host.Outcome State Fault Refusal := writeString putsEnds putsChars s

/-- PUTSP (44_trap.md R206). -/
def servicePutsp (s : State) : Host.Outcome State Fault Refusal := writeString putspEnds putspChars s

/-- IN from its blocking read on (44_trap.md R205): read, echo the low byte, write R0. -/
def inAfterPrompt (s : State) : Host.Outcome State Fault Refusal :=
  match consoleRead s with
  | some (w, s1) => .next (writeInputWord w ((s1.writeByte (lowByte w)).setWaiting none))
  | none => .next (s.setWaiting (some .inp))

/-- IN (44_trap.md R205): the prompt, then the read. -/
def serviceIn (s : State) : Host.Outcome State Fault Refusal := inAfterPrompt (s.writeBytes s.params.inPrompt)

/-- HALT (44_trap.md R207): the notice, a flush, and the run state `halted`. -/
def serviceHalt (s : State) : Host.Outcome State Fault Refusal :=
  .next ((s.writeBytes s.params.haltNotice).flush.setRun .halted)

/-- An unknown vector (44_trap.md R208, 60_exceptions.md R243): nothing, or a fault, as `UNKNOWN_TRAP` says. -/
def serviceUnknown (v : Byte) (s : State) : Host.Outcome State Fault Refusal :=
  match s.params.unknownTrap with
  | .nop => .next s
  | .fault => .next (raiseFault (.unknownTrap v) s)

/-- `TRAP trapvect8` (44_trap.md R200, R201). -/
def execTrap (vect8 : Byte) (s : State) : Host.Outcome State Fault Refusal :=
  match trapService vect8 with
  | .getc => serviceGetc s
  | .out => serviceOut s
  | .puts => servicePuts s
  | .inp => serviceIn s
  | .putsp => servicePutsp s
  | .halt => serviceHalt s
  | .unknown => serviceUnknown vect8 s

/-- The core goes on with the blocking read it is inside. Only the console's answer ends the wait
(40_fetch_execute.md R130, 10_state.md R53). -/
def resumeWait (w : Waiting) (s : State) : Host.Outcome State Fault Refusal :=
  match w with
  | .getc => serviceGetc s
  | .inp => inAfterPrompt s

end Sys2Proof.Machine
end

