-- ==== Sys2Proof/Machine/Step.lean ====
section
/-! DEFINITION. One step of the machine: one cycle (40_fetch_execute.md R121 to R127), or one more look at the console while
the core waits inside GETC or IN (R129, R130). -/

namespace Sys2Proof.Machine

/-- One step. In a terminal run state there is none (R126, R130). While the core waits inside a blocking read, only the
console's answer matters, not `cancel_req` (10_state.md R53). Otherwise the cycle samples `cancel_req`, fetches, increments
`pc`, decodes and executes. -/
def step (s : State) : Host.Outcome State Fault Refusal :=
  match s.run with
  | .halted => .fault .stoppedHalted
  | .faulted record => .fault (.stoppedFaulted record)
  | .cancelled => .fault .stoppedCancelled
  | .running =>
    match s.waiting with
    | some w => resumeWait w s
    | none =>
      if s.cancelReq then .next (honourCancel s)
      else exec (decode (fetch s).ir) (fetch s)

/-- The state with an instruction word, its bits numbered as spec/opcode_table.json numbers them, in the cell that the next
step fetches, and the core at a cycle boundary of a run that is not cancelled. A word cannot be placed at `KBSR_ADDR`,
whose fetch polls (40_fetch_execute.md R122): a `pc` there is moved on by one. See notes/assumptions/18.md. -/
def State.withFetchWord (s : State) (nbits w : Nat) : State :=
  let pc := if s.pc = s.params.kbsrAddr then s.pc + 1 else s.pc
  { s with
    pc := pc
    run := .running
    waiting := none
    cancelReq := false
    mem := s.mem.write pc.toNat (BitVec.ofNat 16 (w % 2 ^ nbits)) }

end Sys2Proof.Machine
end

