-- ==== Sys2Proof/Machine/HostInputs.lean ====
section
/-! DEFINITION. What the outside world may do to the machine while it runs. Each may happen between any two steps, and so
while the core waits inside a blocking read. -/

namespace Sys2Proof.Machine

/-- The host raises `cancel_req` (10_state.md R42, R53); nothing clears it. -/
def State.requestCancel (s : State) : State := { s with cancelReq := true }

/-- More answers of the console become known (10_state.md R51, 60_exceptions.md R246). -/
def State.arriveInput (s : State) (events : List InputEvent) : State := s.setInput (s.input ++ events)

end Sys2Proof.Machine
end

