-- ==== Sys2Proof/Machine/Launch.lean ====
section
/-! DEFINITION. The launch interface (10_state.md R52, 70_reset_and_hazards.md R270 to R273): the launch state for every choice
of the values that the spec leaves open, and the loader's output contract for MEM_INIT (R272). -/

namespace Sys2Proof.Machine

/-- The launch state (10_state.md R44 to R49): `GPR_INIT`, `COND_INIT`, `MEM_INIT`, `PC_START`, whether the host has already
requested cancellation, the console, and the machine's parameters. `State.reset` is one of these. -/
def launch (gprInit : RegFile) (condInit : Cond) (memInit : Memory) (pcStart : Word) (cancelReq : Bool)
    (input : List InputEvent) (whenEmpty : WhenEmpty) (params : Params) : State where
  regs := gprInit
  pc := pcStart
  cond := condInit
  mem := memInit
  run := .running
  cancelReq := cancelReq
  ir := 0x0000
  waiting := none
  input := input
  whenEmpty := whenEmpty
  output := []
  params := params

/-- The big-endian 16-bit words of an image file, high byte first (20_memory.md R71); `none` for an odd number of bytes. -/
def imageWords : List Byte → Option (List Word)
  | [] => some []
  | [_] => none
  | hi :: lo :: rest => (imageWords rest).map ((hi ++ lo) :: ·)

/-- Words written to consecutive cells. -/
def placeWords (m : Memory) (a : Nat) : List Word → Memory
  | [] => m
  | w :: ws => placeWords (m.write a w) (a + 1) ws

/-- One image over a memory: word k (k = 1, 2, ...) goes to cell `origin + k - 1` (70_reset_and_hazards.md R272). `none` for an
image with no origin word or one that would run past 0xFFFF, which the spec leaves outside the core
(91_not_in_source.md N-LOAD). -/
def loadImage (m : Memory) : List Word → Option Memory
  | [] => none
  | origin :: ws => if origin.toNat + ws.length ≤ 65536 then some (placeWords m origin.toNat ws) else none

/-- Several images in the order given: a later one overwrites the cells of an earlier one (70_reset_and_hazards.md R272). -/
def loadImages (m : Memory) : List (List Word) → Option Memory
  | [] => some m
  | image :: images => (loadImage m image).bind (loadImages · images)

end Sys2Proof.Machine
end

