-- ==== Sys2Proof/WellFormed.lean ====
section
/-! DEFINITION. What the types of Syntax and Config do not already ensure. An instruction needs no check of its own: each of
its fields has a type that holds exactly the values its encoding admits, and every combination of them is an instruction
(30_encoding.md R105, R107), so an ill-formed `Instr` cannot be written down. Two checks are left: the two device
addresses are distinct, and a word's ignored bits hold the assembler's values. -/

namespace Sys2Proof

/-- `KBSR_ADDR != KBDR_ADDR` (20_memory.md R62). -/
abbrev Params.wf (p : Params) : Prop := p.kbsrAddr ≠ p.kbdrAddr

/-- A canonical word: the ignored bits hold what a standard assembler writes (30_encoding.md R114, 92_eei_decisions.md D3).
The core gives a word that is not canonical the same meaning (R106). -/
def canonicalWord (w : Word) : Bool := encode (decode w) == w

end Sys2Proof
end

