-- ==== Sys2Proof/Safety.lean ====
section
/-! DEFINITION. The terms in which the claims are stated: what a run shows, the invariant of the machine, the format tables
read as a relation, what the console has ready, and what an instruction changes and leaves unchanged. -/

namespace Sys2Proof

/-- Word `w` spells instruction `i` by the format tables (30_encoding.md R92 to R104): each field of the format holds what
the instruction says, and the ignored bits hold anything. -/
def HasFormat (i : Instr) (w : Word) : Prop :=
  match i with
  | .addReg dr sr1 sr2 => w.extractLsb' 12 4 = 0b0001 ∧ w.extractLsb' 9 3 = dr.bits ∧ w.extractLsb' 6 3 = sr1.bits ∧
      w.extractLsb' 5 1 = 0 ∧ w.extractLsb' 0 3 = sr2.bits
  | .addImm dr sr1 imm5 => w.extractLsb' 12 4 = 0b0001 ∧ w.extractLsb' 9 3 = dr.bits ∧ w.extractLsb' 6 3 = sr1.bits ∧
      w.extractLsb' 5 1 = 1 ∧ w.extractLsb' 0 5 = imm5
  | .andReg dr sr1 sr2 => w.extractLsb' 12 4 = 0b0101 ∧ w.extractLsb' 9 3 = dr.bits ∧ w.extractLsb' 6 3 = sr1.bits ∧
      w.extractLsb' 5 1 = 0 ∧ w.extractLsb' 0 3 = sr2.bits
  | .andImm dr sr1 imm5 => w.extractLsb' 12 4 = 0b0101 ∧ w.extractLsb' 9 3 = dr.bits ∧ w.extractLsb' 6 3 = sr1.bits ∧
      w.extractLsb' 5 1 = 1 ∧ w.extractLsb' 0 5 = imm5
  | .not dr sr => w.extractLsb' 12 4 = 0b1001 ∧ w.extractLsb' 9 3 = dr.bits ∧ w.extractLsb' 6 3 = sr.bits
  | .br n z p off9 => w.extractLsb' 12 4 = 0b0000 ∧ w.extractLsb' 11 1 = BitVec.ofBool n ∧
      w.extractLsb' 10 1 = BitVec.ofBool z ∧ w.extractLsb' 9 1 = BitVec.ofBool p ∧ w.extractLsb' 0 9 = off9
  | .jmp base => w.extractLsb' 12 4 = 0b1100 ∧ w.extractLsb' 6 3 = base.bits
  | .jsr off11 => w.extractLsb' 12 4 = 0b0100 ∧ w.extractLsb' 11 1 = 1 ∧ w.extractLsb' 0 11 = off11
  | .jsrr base => w.extractLsb' 12 4 = 0b0100 ∧ w.extractLsb' 11 1 = 0 ∧ w.extractLsb' 6 3 = base.bits
  | .ld dr off9 => w.extractLsb' 12 4 = 0b0010 ∧ w.extractLsb' 9 3 = dr.bits ∧ w.extractLsb' 0 9 = off9
  | .ldi dr off9 => w.extractLsb' 12 4 = 0b1010 ∧ w.extractLsb' 9 3 = dr.bits ∧ w.extractLsb' 0 9 = off9
  | .ldr dr base off6 => w.extractLsb' 12 4 = 0b0110 ∧ w.extractLsb' 9 3 = dr.bits ∧ w.extractLsb' 6 3 = base.bits ∧
      w.extractLsb' 0 6 = off6
  | .lea dr off9 => w.extractLsb' 12 4 = 0b1110 ∧ w.extractLsb' 9 3 = dr.bits ∧ w.extractLsb' 0 9 = off9
  | .st sr off9 => w.extractLsb' 12 4 = 0b0011 ∧ w.extractLsb' 9 3 = sr.bits ∧ w.extractLsb' 0 9 = off9
  | .sti sr off9 => w.extractLsb' 12 4 = 0b1011 ∧ w.extractLsb' 9 3 = sr.bits ∧ w.extractLsb' 0 9 = off9
  | .str sr base off6 => w.extractLsb' 12 4 = 0b0111 ∧ w.extractLsb' 9 3 = sr.bits ∧ w.extractLsb' 6 3 = base.bits ∧
      w.extractLsb' 0 6 = off6
  | .trap vect8 => w.extractLsb' 12 4 = 0b1111 ∧ w.extractLsb' 0 8 = vect8
  | .rti => w.extractLsb' 12 4 = 0b1000
  | .res => w.extractLsb' 12 4 = 0b1101

/-- Every word that spells the instruction decodes to it. -/
def Decodes (i : Instr) : Prop := ∀ w, HasFormat i w → decode w = i

namespace Machine

/-! ### What a run shows -/

/-- The bytes among recorded output operations. -/
def bytesOf : List OutEvent → List Byte
  | [] => []
  | .byte b :: es => b :: bytesOf es
  | .flush :: es => bytesOf es

/-- The console output: the bytes written, in order, without the flushes (10_state.md R56). -/
def State.outBytes (s : State) : List Byte := bytesOf s.output

/-- What a run that has ended in this state showed (60_exceptions.md R258): the registers, PC, COND, every cell (memory in
canonical form), the run state with the fault record, and the bytes written. -/
structure Observation where
  regs : RegFile
  pc : Word
  cond : Cond
  mem : Memory
  run : RunState
  bytes : List Byte
  deriving DecidableEq, Repr

/-- The observation of a state; only a terminal state has one (60_exceptions.md R258). -/
def State.observe (s : State) : Option Observation :=
  match s.run with
  | .running => none
  | _ => some ⟨s.regs, s.pc, s.cond, s.mem, s.run, s.outBytes⟩

/-! ### The invariant -/

/-- The vector of the service that waits (44_trap.md R201). -/
def Waiting.vector : Waiting → Byte
  | .getc => 0x20
  | .inp => 0x23

/-- The fault record says where and on which word the core faulted, and that word is one that faults with that cause
(60_exceptions.md R242, R244). -/
def FaultRecord.Agrees (r : FaultRecord) (s : State) : Prop :=
  r.pcOfInstruction = s.pc - 1 ∧ r.instr = s.ir ∧
  match r.cause with
  | .illegalOpcode op => s.ir.extractLsb' 12 4 = op ∧ (op = 0x8 ∨ op = 0xD)
  | .unknownTrap v => s.ir.extractLsb' 12 4 = 0xF ∧ s.ir.extractLsb' 0 8 = v ∧ (v.toNat < 0x20 ∨ 0x25 < v.toNat) ∧
      s.params.unknownTrap = .fault

/-- The invariant of the machine: memory is in canonical form and inside the address space (20_memory.md R60), the device
addresses are distinct (R62), a faulted core's record agrees with its state (60_exceptions.md R242), and a core that waits
is running inside the TRAP it fetched (40_fetch_execute.md R129). -/
structure State.Inv (s : State) : Prop where
  memory : s.mem.wf
  devices : s.params.wf
  record : ∀ r, s.run = .faulted r → r.Agrees s
  wait : ∀ w, s.waiting = some w → s.run = .running ∧ decode s.ir = .trap w.vector

/-! ### What the console has ready -/

/-- A poll finds `w` ready, and taking it leaves `rest` (10_state.md R51, R55, 92_eei_decisions.md D7). -/
def PollFinds (s : State) (w : Word) (rest : List InputEvent) : Prop :=
  (∃ b, s.input = .byte b :: rest ∧ w = zext b) ∨ (s.input = .eof :: rest ∧ w = s.params.eofWord)

/-- A poll finds nothing ready. -/
def PollFindsNothing (s : State) : Prop := s.input = [] ∨ ∃ rest, s.input = .notReady :: rest

/-- A blocking read returns `w` and leaves `rest`: the first input past any `notReady` answers, or `EOF_WORD` from a
console that gives it once its answers are used up (10_state.md R51, R55, 92_eei_decisions.md D7). -/
def ReadReturns (s : State) (w : Word) (rest : List InputEvent) : Prop :=
  (∃ n b, s.input = List.replicate n .notReady ++ .byte b :: rest ∧ w = zext b) ∨
  (∃ n, s.input = List.replicate n .notReady ++ .eof :: rest ∧ w = s.params.eofWord) ∨
  (∃ n, s.input = List.replicate n .notReady ∧ s.whenEmpty = .eof ∧ w = s.params.eofWord ∧ rest = [])

/-- A blocking read does not return: no input is left, and the console does not end with `EOF_WORD` answers. -/
def ReadBlocks (s : State) : Prop := (∀ e ∈ s.input, e = .notReady) ∧ s.whenEmpty = .blocks

/-! ### Frames and effects -/

/-- Every register but `d` is unchanged. -/
def SameRegsBut (d : Reg) (s t : State) : Prop := ∀ r, r ≠ d → t.reg r = s.reg r

/-- Every register is unchanged. -/
def SameRegs (s t : State) : Prop := ∀ r, t.reg r = s.reg r

/-- Every cell of memory reads as before. -/
def SameMemory (s t : State) : Prop := ∀ a, t.cell a = s.cell a

/-- Every cell of memory but the one at `a` reads as before. -/
def SameMemoryBut (a : Word) (s t : State) : Prop := ∀ b, b ≠ a → t.cell b = s.cell b

/-- No input is taken and no byte written. -/
structure SameConsole (s t : State) : Prop where
  input : t.input = s.input
  bytes : t.outBytes = s.outBytes

/-- What is neither register, COND, PC, memory, console stream nor run state is unchanged. -/
structure SameRest (s t : State) : Prop where
  cancelReq : t.cancelReq = s.cancelReq
  waiting : t.waiting = s.waiting
  ir : t.ir = s.ir
  whenEmpty : t.whenEmpty = s.whenEmpty
  params : t.params = s.params

/-- As `SameRest`, and the run state is unchanged. -/
structure SameControl (s t : State) : Prop extends SameRest s t where
  run : t.run = s.run

/-- `x[DR] <- v; SetCC(v)`, and nothing else. -/
structure ResultWritten (dr : Reg) (v : Word) (s t : State) : Prop where
  result : t.reg dr = v
  cond : t.cond = condOf v
  regs : SameRegsBut dr s t
  pc : t.pc = s.pc
  memory : SameMemory s t
  console : SameConsole s t
  control : SameControl s t

/-- PC becomes `target`, and nothing else changes. -/
structure Jumped (target : Word) (s t : State) : Prop where
  pc : t.pc = target
  regs : SameRegs s t
  cond : t.cond = s.cond
  memory : SameMemory s t
  console : SameConsole s t
  control : SameControl s t

/-- R7 becomes `link`, PC becomes `target`, and nothing else changes. -/
structure Linked (link target : Word) (s t : State) : Prop where
  link : t.reg .r7 = link
  pc : t.pc = target
  regs : SameRegsBut .r7 s t
  cond : t.cond = s.cond
  memory : SameMemory s t
  console : SameConsole s t
  control : SameControl s t

/-- `MemRead(a, 1)` returns `v` and leaves `t` (20_memory.md R63): pure but at `KBSR_ADDR`; there a ready poll sets KBSR to
0x8000 and KBDR to the input word it takes, and a poll that is not ready sets KBSR to 0 and leaves KBDR. -/
structure ReadEffect (a : Word) (s : State) (v : Word) (t : State) : Prop where
  regs : SameRegs s t
  cond : t.cond = s.cond
  pc : t.pc = s.pc
  bytes : t.outBytes = s.outBytes
  control : SameControl s t
  plain : a ≠ s.params.kbsrAddr → v = s.cell a ∧ SameMemory s t ∧ t.input = s.input
  ready : ∀ w rest, a = s.params.kbsrAddr → PollFinds s w rest →
    v = t.cell s.params.kbsrAddr ∧ t.cell s.params.kbdrAddr = w ∧ t.input = rest ∧
    (s.params.kbsrAddr ≠ s.params.kbdrAddr → v = 0x8000) ∧
    ∀ b, b ≠ s.params.kbsrAddr → b ≠ s.params.kbdrAddr → t.cell b = s.cell b
  notReady : a = s.params.kbsrAddr → PollFindsNothing s →
    v = 0x0000 ∧ t.cell s.params.kbsrAddr = 0x0000 ∧ t.input = s.input.tail ∧
    SameMemoryBut s.params.kbsrAddr s t

/-- `MemWrite(a, 1, v)` and nothing else (20_memory.md R64). -/
structure Stored (a v : Word) (s t : State) : Prop where
  stored : t.cell a = v
  memory : SameMemoryBut a s t
  regs : SameRegs s t
  cond : t.cond = s.cond
  pc : t.pc = s.pc
  console : SameConsole s t
  control : SameControl s t

/-- A load of the cell at `ea` into `dr`: a MemRead, then `x[DR] <- v; SetCC(v)` (43_load_store.md). -/
def Loaded (dr : Reg) (ea : Word) (s t : State) : Prop :=
  ReadEffect ea s (memRead ea s).1 (memRead ea s).2 ∧ ResultWritten dr (memRead ea s).1 (memRead ea s).2 t

/-- The bytes `bs` are written to the console, and neither register, COND, PC, memory nor input changes. -/
structure Printed (bs : List Byte) (s t : State) : Prop where
  bytes : t.outBytes = s.outBytes ++ bs
  regs : SameRegs s t
  cond : t.cond = s.cond
  pc : t.pc = s.pc
  memory : SameMemory s t
  input : t.input = s.input

/-- An input word `w` is in R0 and the bytes `bs` are written; COND follows `TRAP_IN_FLAGS` (44_trap.md R202, R205, R211);
the core is no longer inside a read, and nothing else but the input changes. -/
structure InputTaken (w : Word) (rest : List InputEvent) (bs : List Byte) (s t : State) : Prop where
  result : t.reg .r0 = w
  condUpdate : s.params.trapInFlags = .update → t.cond = condOf w
  condPreserve : s.params.trapInFlags = .preserve → t.cond = s.cond
  input : t.input = rest
  bytes : t.outBytes = s.outBytes ++ bs
  regs : SameRegsBut .r0 s t
  pc : t.pc = s.pc
  memory : SameMemory s t
  waiting : t.waiting = none
  run : t.run = s.run
  cancelReq : t.cancelReq = s.cancelReq
  ir : t.ir = s.ir
  whenEmpty : t.whenEmpty = s.whenEmpty
  params : t.params = s.params

/-- The core is inside a blocking read of service `w`, with the bytes `bs` written before it; nothing else changes. -/
structure Suspended (w : Waiting) (bs : List Byte) (s t : State) : Prop extends Printed bs s t where
  waiting : t.waiting = some w
  run : t.run = s.run
  cancelReq : t.cancelReq = s.cancelReq
  ir : t.ir = s.ir
  whenEmpty : t.whenEmpty = s.whenEmpty
  params : t.params = s.params

/-- The run state becomes `r`, and neither register, COND, PC, memory nor console changes. -/
structure Ended (r : RunState) (s t : State) : Prop where
  run : t.run = r
  regs : SameRegs s t
  cond : t.cond = s.cond
  pc : t.pc = s.pc
  memory : SameMemory s t
  console : SameConsole s t
  rest : SameRest s t

/-- The cell that a string scan from R0 looks at after `k` cells (44_trap.md R204, R206). -/
def scanAddr (s : State) (k : Nat) : Word := s.reg .r0 + BitVec.ofNat 16 k

/-- The scan from R0 passes `n` cells: none of them is at `KBSR_ADDR` and none has `stop` of its contents. -/
def ScanPasses (stop : Word → Prop) (s : State) (n : Nat) : Prop :=
  ∀ k < n, scanAddr s k ≠ s.params.kbsrAddr ∧ ¬ stop (s.cell (scanAddr s k))

/-- The scan from R0 stops at the cell after `n` cells. -/
def ScanStops (stop : Word → Prop) (s : State) (n : Nat) : Prop :=
  ScanPasses stop s n ∧ scanAddr s n ≠ s.params.kbsrAddr ∧ stop (s.cell (scanAddr s n))

/-- The scan from R0 reaches `KBSR_ADDR` after `n` cells. -/
def ScanReachesKbsr (stop : Word → Prop) (s : State) (n : Nat) : Prop :=
  ScanPasses stop s n ∧ scanAddr s n = s.params.kbsrAddr

/-- The bytes that PUTS writes for `n` cells: the low byte of each (44_trap.md R204). -/
def putsBytes (s : State) (n : Nat) : List Byte :=
  (List.range n).map fun k => (s.cell (scanAddr s k)).extractLsb' 0 8

/-- The bytes that PUTSP writes for `n` cells: of each the low byte, and the high byte unless it is zero
(44_trap.md R206). -/
def putspBytes (s : State) (n : Nat) : List Byte :=
  (List.range n).flatMap fun k =>
    let w := s.cell (scanAddr s k)
    if w.extractLsb' 8 8 = 0 then [w.extractLsb' 0 8] else [w.extractLsb' 0 8, w.extractLsb' 8 8]

/-! ### Which instruction may write what -/

/-- The register that an instruction may write (10_state.md R31, R32): its destination; R7 for JSR and JSRR; R0 for TRAP
with the vector of GETC or IN. -/
def destReg : Instr → Option Reg
  | .addReg dr _ _ | .addImm dr _ _ | .andReg dr _ _ | .andImm dr _ _ | .not dr _ => some dr
  | .ld dr _ | .ldi dr _ | .ldr dr _ _ | .lea dr _ => some dr
  | .jsr _ | .jsrr _ => some .r7
  | .trap v => if v = 0x20 ∨ v = 0x23 then some .r0 else none
  | .br _ _ _ _ | .jmp _ | .st _ _ | .sti _ _ | .str _ _ _ | .rti | .res => none

/-- The instructions that may write COND (10_state.md R37); of the traps, GETC and IN under `TRAP_IN_FLAGS = update`. -/
def mayWriteCond (p : Params) : Instr → Bool
  | .addReg _ _ _ | .addImm _ _ _ | .andReg _ _ _ | .andImm _ _ _ | .not _ _ => true
  | .ld _ _ | .ldi _ _ | .ldr _ _ _ | .lea _ _ => true
  | .trap v => (v == 0x20 || v == 0x23) && p.trapInFlags == .update
  | .br _ _ _ _ | .jmp _ | .jsr _ | .jsrr _ | .st _ _ | .sti _ _ | .str _ _ _ | .rti | .res => false

/-- The instructions that may write PC beyond the fetch increment (10_state.md R34). -/
def mayWritePc : Instr → Bool
  | .br _ _ _ _ | .jmp _ | .jsr _ | .jsrr _ => true
  | .addReg _ _ _ | .addImm _ _ _ | .andReg _ _ _ | .andImm _ _ _ | .not _ _ => false
  | .ld _ _ | .ldi _ _ | .ldr _ _ _ | .lea _ _ | .st _ _ | .sti _ _ | .str _ _ _ => false
  | .trap _ | .rti | .res => false

/-- The address that a store writes, computed as its meaning does (43_load_store.md R184, R185, R186). -/
def storeAddr (i : Instr) (s : State) : Option Word :=
  match i with
  | .st _ off9 => some (pcRelative off9 s)
  | .sti _ off9 => some (indirect off9 s).1
  | .str _ base off6 => some (baseOffset base off6 s)
  | .addReg _ _ _ | .addImm _ _ _ | .andReg _ _ _ | .andImm _ _ _ | .not _ _ => none
  | .br _ _ _ _ | .jmp _ | .jsr _ | .jsrr _ | .ld _ _ | .ldi _ _ | .ldr _ _ _ | .lea _ _ => none
  | .trap _ | .rti | .res => none

/-- The addresses that an instruction reads with MemRead after its fetch (20_memory.md R70). -/
def readAddrs (i : Instr) (s : State) : List Word :=
  match i with
  | .ld _ off9 | .sti _ off9 => [pcRelative off9 s]
  | .ldi _ off9 => [pcRelative off9 s, (indirect off9 s).1]
  | .ldr _ base off6 => [baseOffset base off6 s]
  | .addReg _ _ _ | .addImm _ _ _ | .andReg _ _ _ | .andImm _ _ _ | .not _ _ => []
  | .br _ _ _ _ | .jmp _ | .jsr _ | .jsrr _ | .lea _ _ | .st _ _ | .str _ _ _ => []
  | .trap _ | .rti | .res => []

/-- Two outcomes differ at most in the COND of their next states. -/
def AgreeButCond : Host.Outcome State Fault Refusal → Host.Outcome State Fault Refusal → Prop
  | .next t, .next u => u = { t with cond := u.cond }
  | .fault f, .fault g => f = g
  | .refused f, .refused g => f = g
  | _, _ => False

end Machine

end Sys2Proof
end

