-- ==== Sys2Proof/Certificates/Slice0/Obligations.lean ====
section
/-! DEFINITION. The statements for the provers, each from the rules of spec/ that its docstring names. A statement about `exec`
speaks of the state that the fetch and the increment left (40_fetch_execute.md R125): `pc` is the instruction's address plus
one. Statements about console output speak of the bytes alone (10_state.md R56). -/

open Sys2Proof Sys2Proof.Machine

/-! ### Values: sign extension, flags, arithmetic -/

/-- 10_state.md R36: SetCC(v) sets ZRO for 0, else NEG if bit 15 is set, else POS. -/
def Obligations.SetCcClassifiesEveryValue : Prop :=
  ∀ (v : Word) (s : State),
    setCC v s = { s with cond := (setCC v s).cond } ∧
    ((setCC v s).cond = .zro ↔ v.toNat = 0) ∧
    ((setCC v s).cond = .neg ↔ 0x8000 ≤ v.toNat) ∧
    ((setCC v s).cond = .pos ↔ 0 < v.toNat ∧ v.toNat < 0x8000)

/-- 00_scope.md R11: bits N-1 to 0 are the field, bits 15 to N each its top bit, and the field keeps its signed value. -/
def Obligations.SextRepeatsTheTopBit : Prop :=
  (∀ n, n = 5 ∨ n = 6 ∨ n = 9 ∨ n = 11 → ∀ (f : BitVec n) (i : Nat), i < 16 →
    (sext f).getLsbD i = if i < n then f.getLsbD i else f.getLsbD (n - 1)) ∧
  (∀ n, n = 5 ∨ n = 6 ∨ n = 9 ∨ n = 11 → ∀ f : BitVec n, (sext f).toInt = f.toInt)

/-- 41_operate.md R145: ADD computes the sum modulo 65536, whether its operands are read unsigned or as two's complement. -/
def Obligations.AdditionWrapsSilently : Prop :=
  ∀ (s : State) (dr sr1 sr2 : Reg), ∃ t, exec (.addReg dr sr1 sr2) s = .next t ∧
    (t.reg dr).toNat = ((s.reg sr1).toNat + (s.reg sr2).toNat) % 65536 ∧
    (t.reg dr).toInt = ((s.reg sr1).toInt + (s.reg sr2).toInt).bmod 65536 ∧
    t.run = s.run

/-! ### Operate instructions -/

/-- 41_operate.md R140. -/
def Obligations.AddRegisterForm : Prop :=
  ∀ (s : State) (dr sr1 sr2 : Reg), Decodes (.addReg dr sr1 sr2) ∧
    ∃ t, exec (.addReg dr sr1 sr2) s = .next t ∧ ResultWritten dr (s.reg sr1 + s.reg sr2) s t

/-- 41_operate.md R141. -/
def Obligations.AddImmediateForm : Prop :=
  ∀ (s : State) (dr sr1 : Reg) (imm5 : BitVec 5), Decodes (.addImm dr sr1 imm5) ∧
    ∃ t, exec (.addImm dr sr1 imm5) s = .next t ∧ ResultWritten dr (s.reg sr1 + sext imm5) s t

/-- 41_operate.md R142. -/
def Obligations.AndRegisterForm : Prop :=
  ∀ (s : State) (dr sr1 sr2 : Reg), Decodes (.andReg dr sr1 sr2) ∧
    ∃ t, exec (.andReg dr sr1 sr2) s = .next t ∧ ResultWritten dr (s.reg sr1 &&& s.reg sr2) s t

/-- 41_operate.md R143. -/
def Obligations.AndImmediateForm : Prop :=
  ∀ (s : State) (dr sr1 : Reg) (imm5 : BitVec 5), Decodes (.andImm dr sr1 imm5) ∧
    ∃ t, exec (.andImm dr sr1 imm5) s = .next t ∧ ResultWritten dr (s.reg sr1 &&& sext imm5) s t

/-- 41_operate.md R144. -/
def Obligations.NotComplements : Prop :=
  ∀ (s : State) (dr sr : Reg), Decodes (.not dr sr) ∧
    ∃ t, exec (.not dr sr) s = .next t ∧ ResultWritten dr (~~~(s.reg sr)) s t

/-! ### Control transfer -/

/-- 42_control.md R160: BR goes to `pc + sext_9(off)` exactly when the mask selects COND, and changes nothing else. -/
def Obligations.BrFollowsTheMask : Prop :=
  ∀ (s : State) (n z p : Bool) (off9 : BitVec 9), Decodes (.br n z p off9) ∧
    ∃ t, exec (.br n z p off9) s = .next t ∧
      ((n = true ∧ s.cond = .neg ∨ z = true ∧ s.cond = .zro ∨ p = true ∧ s.cond = .pos) →
        Jumped (s.pc + sext off9) s t) ∧
      (¬(n = true ∧ s.cond = .neg ∨ z = true ∧ s.cond = .zro ∨ p = true ∧ s.cond = .pos) → Jumped s.pc s t)

/-- 42_control.md R161. -/
def Obligations.JmpGoesToTheBase : Prop :=
  ∀ (s : State) (base : Reg), Decodes (.jmp base) ∧
    ∃ t, exec (.jmp base) s = .next t ∧ Jumped (s.reg base) s t

/-- 42_control.md R162. -/
def Obligations.JsrLinksAndJumps : Prop :=
  ∀ (s : State) (off11 : BitVec 11), Decodes (.jsr off11) ∧
    ∃ t, exec (.jsr off11) s = .next t ∧ Linked s.pc (s.pc + sext off11) s t

/-- 42_control.md R163 with the spec's decision D15 (log 17): BaseR is read after R7 is written, so `JSRR R7` falls through. -/
def Obligations.JsrrLinksThenReadsTheBase : Prop :=
  ∀ (s : State) (base : Reg), ∃ t, exec (.jsrr base) s = .next t ∧
    Linked s.pc (if base = .r7 then s.pc else s.reg base) s t

/-! ### Memory, loads and stores -/

/-- 20_memory.md R63 with the spec's decisions D6 and D7: MemRead is pure but at `KBSR_ADDR`, where it polls. -/
def Obligations.MemReadPollsAtKbsrOnly : Prop :=
  ∀ (a : Word) (s : State), ReadEffect a s (memRead a s).1 (memRead a s).2

/-- 20_memory.md R64: MemWrite stores the value at its address, at the device addresses too, and does nothing else. -/
def Obligations.MemWriteStoresOneCell : Prop :=
  ∀ (a v : Word) (s : State), Stored a v s (memWrite a v s)

/-- 43_load_store.md R180, with what its MemRead does (20_memory.md R63) by the spec's decisions D6 and D7 (log 21). -/
def Obligations.LdLoadsPcRelative : Prop :=
  ∀ (s : State) (dr : Reg) (off9 : BitVec 9), Decodes (.ld dr off9) ∧
    ∃ t, exec (.ld dr off9) s = .next t ∧ Loaded dr (s.pc + sext off9) s t

/-- 43_load_store.md R181: the pointer is read first, then the operand. What each MemRead does (20_memory.md R63) is by the
spec's decisions D6 and D7 (log 21). -/
def Obligations.LdiLoadsThroughThePointer : Prop :=
  ∀ (s : State) (dr : Reg) (off9 : BitVec 9), Decodes (.ldi dr off9) ∧
    ReadEffect (s.pc + sext off9) s (indirect off9 s).1 (indirect off9 s).2 ∧
    ∃ t, exec (.ldi dr off9) s = .next t ∧ Loaded dr (indirect off9 s).1 (indirect off9 s).2 t

/-- 43_load_store.md R182, with what its MemRead does (20_memory.md R63) by the spec's decisions D6 and D7 (log 21). -/
def Obligations.LdrLoadsBasePlusOffset : Prop :=
  ∀ (s : State) (dr base : Reg) (off6 : BitVec 6), Decodes (.ldr dr base off6) ∧
    ∃ t, exec (.ldr dr base off6) s = .next t ∧ Loaded dr (s.reg base + sext off6) s t

/-- 43_load_store.md R183: the address itself; memory is not read, so no poll happens. -/
def Obligations.LeaGivesTheAddress : Prop :=
  ∀ (s : State) (dr : Reg) (off9 : BitVec 9), Decodes (.lea dr off9) ∧
    ∃ t, exec (.lea dr off9) s = .next t ∧ ResultWritten dr (s.pc + sext off9) s t

/-- 43_load_store.md R184. -/
def Obligations.StStoresPcRelative : Prop :=
  ∀ (s : State) (sr : Reg) (off9 : BitVec 9), Decodes (.st sr off9) ∧
    ∃ t, exec (.st sr off9) s = .next t ∧ Stored (s.pc + sext off9) (s.reg sr) s t

/-- 43_load_store.md R185: the pointer read may poll; the store goes where the pointer says. What the MemRead does
(20_memory.md R63) is by the spec's decisions D6 and D7 (log 21). -/
def Obligations.StiStoresThroughThePointer : Prop :=
  ∀ (s : State) (sr : Reg) (off9 : BitVec 9), Decodes (.sti sr off9) ∧
    ReadEffect (s.pc + sext off9) s (indirect off9 s).1 (indirect off9 s).2 ∧
    ∃ t, exec (.sti sr off9) s = .next t ∧ Stored (indirect off9 s).1 (s.reg sr) (indirect off9 s).2 t

/-- 43_load_store.md R186. -/
def Obligations.StrStoresBasePlusOffset : Prop :=
  ∀ (s : State) (sr base : Reg) (off6 : BitVec 6), Decodes (.str sr base off6) ∧
    ∃ t, exec (.str sr base off6) s = .next t ∧ Stored (s.reg base + sext off6) (s.reg sr) s t

/-- 20_memory.md R78: what ST, STI or STR stores at the next `pc` is the word that the next cycle fetches. -/
def Obligations.NextFetchSeesTheStore : Prop :=
  ∀ (s t : State) (i : Instr) (a : Word), exec i s = .next t → storeAddr i s = some a → t.pc = a →
    a ≠ s.params.kbsrAddr →
    ∀ sr, (∃ off9, i = .st sr off9 ∨ i = .sti sr off9) ∨ (∃ base off6, i = .str sr base off6) →
      (fetch t).ir = s.reg sr

/-! ### TRAP -/

/-- 44_trap.md R202 and R211 with the spec's decisions D7 (log 21), D8 and D13: GETC takes the next input word into R0, with
COND as `TRAP_IN_FLAGS` says. The form of the console's answers is the model's (log 8). -/
def Obligations.GetcTakesAnInputWord : Prop :=
  ∀ (s : State) (w : Word) (rest : List InputEvent), ReadReturns s w rest →
    ∃ t, exec (.trap 0x20) s = .next t ∧ InputTaken w rest [] s t

/-- 44_trap.md R205 and R211 with the spec's decisions D7 (log 21), D8, D13 and D18: IN writes its prompt, takes the next input
word into R0 and echoes its low byte. The form of the console's answers is the model's (log 8). -/
def Obligations.InPromptsReadsAndEchoes : Prop :=
  ∀ (s : State) (w : Word) (rest : List InputEvent), ReadReturns s w rest →
    ∃ t, exec (.trap 0x23) s = .next t ∧
      InputTaken w rest (s.params.inPrompt ++ [w.extractLsb' 0 8]) s t

/-- 40_fetch_execute.md R129 and R130 (the forms of the wait and of the console's answers are the model's, logs 10 and 8): GETC
and IN stay inside the instruction while the console does not answer; IN has written its prompt (44_trap.md R205, D18). -/
def Obligations.BlockingReadSuspends : Prop :=
  ∀ s : State, ReadBlocks s →
    (∃ t, exec (.trap 0x20) s = .next t ∧ Suspended .getc [] s t) ∧
    (∃ t, exec (.trap 0x23) s = .next t ∧ Suspended .inp s.params.inPrompt s t)

/-- 10_state.md R53 with the spec's decision D20: whatever `cancel_req` is, a suspended core goes on only when the console
answers. It then finishes its GETC or IN as 44_trap.md R202, R205 and R211 say, with the decisions D7 (log 21) and D13. The
forms of the wait and of the console's answers are the model's (logs 10 and 8). -/
def Obligations.OnlyTheConsoleEndsAWait : Prop :=
  ∀ (s : State) (v : Waiting), s.run = .running → s.waiting = some v →
    (ReadBlocks s → step s = .next s) ∧
    ∀ (w : Word) (rest : List InputEvent), ReadReturns s w rest →
      ∃ t, step s = .next t ∧
        InputTaken w rest (match v with | .getc => [] | .inp => [w.extractLsb' 0 8]) s t

/-- 44_trap.md R203: OUT writes the low byte of R0 and changes no register, COND, PC or memory. -/
def Obligations.OutWritesTheLowByte : Prop :=
  ∀ s : State, ∃ t, exec (.trap 0x21) s = .next t ∧
    Printed [(s.reg .r0).extractLsb' 0 8] s t ∧ SameControl s t

/-- 44_trap.md R204 with the spec's decision D16: PUTS writes the low bytes of the cells from R0 up to the first cell that is
zero. -/
def Obligations.PutsWritesUpToTheZeroCell : Prop :=
  ∀ (s : State) (n : Nat), n < 65536 → ScanStops (fun w => w = 0) s n →
    ∃ t, exec (.trap 0x22) s = .next t ∧ Printed (putsBytes s n) s t ∧ SameControl s t

/-- 44_trap.md R206 with the spec's decision D16: PUTSP writes one or two characters a cell, the low byte first, up to the
first cell whose low byte is zero. -/
def Obligations.PutspWritesPackedCharacters : Prop :=
  ∀ (s : State) (n : Nat), n < 65536 → ScanStops (fun w => w.extractLsb' 0 8 = 0) s n →
    ∃ t, exec (.trap 0x24) s = .next t ∧ Printed (putspBytes s n) s t ∧ SameControl s t

/-- 44_trap.md R209 with the spec's decisions D16 and D17, and 40_fetch_execute.md R129: within 65536 cells a PUTS scan meets
its terminator, and then completes, or reaches `KBSR_ADDR`, and then is refused. -/
def Obligations.PutsScanEndsOrIsRefused : Prop :=
  ∀ s : State, ∃ n, n < 65536 ∧
    ((ScanStops (fun w => w = 0) s n ∧ ∃ t, exec (.trap 0x22) s = .next t) ∨
     (ScanReachesKbsr (fun w => w = 0) s n ∧ exec (.trap 0x22) s = .refused .scanReachesKbsr))

/-- As `PutsScanEndsOrIsRefused`, for PUTSP. -/
def Obligations.PutspScanEndsOrIsRefused : Prop :=
  ∀ s : State, ∃ n, n < 65536 ∧
    ((ScanStops (fun w => w.extractLsb' 0 8 = 0) s n ∧ ∃ t, exec (.trap 0x24) s = .next t) ∨
     (ScanReachesKbsr (fun w => w.extractLsb' 0 8 = 0) s n ∧ exec (.trap 0x24) s = .refused .scanReachesKbsr))

/-- 44_trap.md R207 with the parameter of D18: HALT writes its notice and stops the engine as `halted`. -/
def Obligations.HaltStopsTheEngine : Prop :=
  ∀ s : State, ∃ t, exec (.trap 0x25) s = .next t ∧ t.run = .halted ∧
    Printed s.params.haltNotice s t ∧ SameRest s t

/-- 44_trap.md R208 and 60_exceptions.md R243, with the spec's decision D14: an unknown vector does nothing under
`UNKNOWN_TRAP = nop` and faults under `fault`. -/
def Obligations.UnknownVectorDoesAsConfigured : Prop :=
  ∀ (s : State) (v : Byte), v.toNat < 0x20 ∨ 0x25 < v.toNat →
    (s.params.unknownTrap = .nop → exec (.trap v) s = .next s) ∧
    (s.params.unknownTrap = .fault →
      ∃ t, exec (.trap v) s = .next t ∧ Ended (.faulted ⟨.unknownTrap v, s.pc - 1, s.ir⟩) s t)

/-- 60_exceptions.md R248: TRAP saves no link and changes no mode: R1 to R7, PC and memory are unchanged, and R0 too but
for GETC and IN. -/
def Obligations.TrapSavesNoLink : Prop :=
  ∀ (s t : State) (v : Byte), exec (.trap v) s = .next t →
    SameRegsBut .r0 s t ∧ t.pc = s.pc ∧ SameMemory s t ∧ t.params = s.params ∧ t.cancelReq = s.cancelReq ∧
    t.ir = s.ir ∧ (v ≠ 0x20 → v ≠ 0x23 → t.reg .r0 = s.reg .r0 ∧ t.cond = s.cond ∧ t.input = s.input)

/-! ### Faults -/

/-- 45_illegal.md R230: RTI faults the core as `IllegalOpcode(0x8)`; nothing else changes. -/
def Obligations.RtiFaults : Prop :=
  ∀ s : State, Decodes .rti ∧ ∃ t r, exec .rti s = .next t ∧ r.cause = .illegalOpcode 0x8 ∧ Ended (.faulted r) s t

/-- 45_illegal.md R231: RES faults the core as `IllegalOpcode(0xD)`; nothing else changes. -/
def Obligations.ResFaults : Prop :=
  ∀ s : State, Decodes .res ∧ ∃ t r, exec .res s = .next t ∧ r.cause = .illegalOpcode 0xD ∧ Ended (.faulted r) s t

/-- 60_exceptions.md R242 and R244 with the spec's decision D19: a cycle that faults records the address it fetched from, the
word it fetched, and the cause that word has. -/
def Obligations.FaultRecordNamesTheInstruction : Prop :=
  ∀ (s t : State) (r : FaultRecord), step s = .next t → t.run = .faulted r →
    s.waiting = none →
    r.pcOfInstruction = s.pc ∧ r.instr = (memRead s.pc s).1 ∧
    match r.cause with
    | .illegalOpcode op => r.instr.extractLsb' 12 4 = op ∧ (op = 0x8 ∨ op = 0xD)
    | .unknownTrap v => r.instr.extractLsb' 12 4 = 0xF ∧ r.instr.extractLsb' 0 8 = v ∧
        (v.toNat < 0x20 ∨ 0x25 < v.toNat) ∧ s.params.unknownTrap = .fault

/-- 60_exceptions.md R244 with the spec's decision D19: a step that ends faulted records code 1 with the opcode of an RTI or
RES word, or code 2 with the vector of a TRAP word, only if that vector is unknown and `UNKNOWN_TRAP = fault`. -/
def Obligations.FaultedStepHasItsCauseCode : Prop :=
  ∀ (s t : State) (r : FaultRecord), step s = .next t → t.run = .faulted r →
    (r.cause.code = 1 ∧ (decode (memRead s.pc s).1 = .rti ∧ r.cause.value.toNat = 8 ∨
      decode (memRead s.pc s).1 = .res ∧ r.cause.value.toNat = 13)) ∨
    (r.cause.code = 2 ∧ s.params.unknownTrap = .fault ∧
      ∃ v : Byte, decode (memRead s.pc s).1 = .trap v ∧ (v.toNat < 0x20 ∨ 0x25 < v.toNat) ∧
        r.cause.value.toNat = v.toNat)

/-! ### The cycle -/

/-- 40_fetch_execute.md R121: at a cycle boundary a pending cancellation is taken, with no fetch and no other change. -/
def Obligations.CancellationComesBeforeTheFetch : Prop :=
  ∀ s : State, s.run = .running → s.waiting = none → s.cancelReq = true →
    ∃ t, step s = .next t ∧ Ended .cancelled s t

/-- 40_fetch_execute.md R122 to R125: with no cancellation pending, a cycle is the MemRead at `pc` and its effect, `pc` one
further, and the execute step of the decoded word on that state. -/
def Obligations.StepRunsTheDecodedInstruction : Prop :=
  ∀ (s : State) (i : Instr), s.run = .running → s.waiting = none → s.cancelReq = false →
    decode (memRead s.pc s).1 = i →
    step s = exec i { (memRead s.pc s).2 with ir := (memRead s.pc s).1, pc := s.pc + 1 } ∧
    (s.pc ≠ s.params.kbsrAddr →
      step s = exec (decode (s.cell s.pc)) { s with ir := s.cell s.pc, pc := s.pc + 1 })

/-- 40_fetch_execute.md R122 (derived there from R63) with the spec's decisions D6 and D7 (log 21): a fetch from `KBSR_ADDR`
polls; it executes RTI when input is ready, and a branch that is never taken when it is not. -/
def Obligations.FetchFromKbsrPolls : Prop :=
  ∀ s : State, s.run = .running → s.waiting = none → s.cancelReq = false → s.pc = s.params.kbsrAddr → s.params.wf →
    (∀ w rest, PollFinds s w rest → ∃ t r, step s = .next t ∧ t.run = .faulted r ∧ r.instr = 0x8000 ∧
      r.cause = .illegalOpcode 0x8 ∧ t.pc = s.pc + 1 ∧ t.cell s.params.kbsrAddr = 0x8000 ∧
      t.cell s.params.kbdrAddr = w ∧ t.input = rest ∧ SameRegs s t ∧ t.cond = s.cond ∧ t.outBytes = s.outBytes) ∧
    (PollFindsNothing s → ∃ t, step s = .next t ∧ t.run = .running ∧ t.pc = s.pc + 1 ∧
      t.cell s.params.kbsrAddr = 0x0000 ∧ SameMemoryBut s.params.kbsrAddr s t ∧ t.input = s.input.tail ∧
      SameRegs s t ∧ t.cond = s.cond ∧ t.outBytes = s.outBytes)

/-- 40_fetch_execute.md R126: once the run state is terminal, no further cycle runs. -/
def Obligations.TerminalStateHasNoStep : Prop :=
  ∀ s : State, (s.run ≠ .running ↔ ∃ f, step s = .fault f) ∧
    (s.run = .halted → step s = .fault .stoppedHalted) ∧
    (∀ r, s.run = .faulted r → step s = .fault (.stoppedFaulted r)) ∧
    (s.run = .cancelled → step s = .fault .stoppedCancelled)

/-- 40_fetch_execute.md R130 with 60_exceptions.md R240 and the spec's decisions D17 and D20: a step from `running` has a next
state, unless the word it fetched is a PUTS or a PUTSP whose scan is refused; nothing else stops the machine. That a blocked
read, an outcome of its own in R130, is a next state that waits is the model's (log 10). -/
def Obligations.RunningStepHasANextState : Prop :=
  ∀ s : State, s.run = .running →
    (∃ t, step s = .next t) ∨
    (step s = .refused .scanReachesKbsr ∧ s.waiting = none ∧ s.cancelReq = false ∧
      (decode (memRead s.pc s).1 = .trap 0x22 ∨ decode (memRead s.pc s).1 = .trap 0x24))

/-- 40_fetch_execute.md R128: a run ends by HALT, by an illegal opcode or an unknown vector under `UNKNOWN_TRAP = fault`, or
by a cancellation at a cycle boundary, and in no other way. -/
def Obligations.ThreeWaysToEnd : Prop :=
  ∀ s t : State, step s = .next t → t.run ≠ .running →
    s.waiting = none ∧
    ((t.run = .cancelled ∧ s.cancelReq = true) ∨
     (s.cancelReq = false ∧
      ((t.run = .halted ∧ decode (memRead s.pc s).1 = .trap 0x25) ∨
       (∃ r, t.run = .faulted r ∧
        (decode (memRead s.pc s).1 = .rti ∨ decode (memRead s.pc s).1 = .res ∨
         ∃ v, decode (memRead s.pc s).1 = .trap v ∧ (v.toNat < 0x20 ∨ 0x25 < v.toNat) ∧
          s.params.unknownTrap = .fault)))))

/-! ### What instructions leave alone -/

/-- 10_state.md R31 and R32: an instruction writes no register but its destination (R7 for JSR and JSRR, R0 for GETC
and IN). -/
def Obligations.OnlyTheDestinationIsWritten : Prop :=
  ∀ (i : Instr) (s t : State) (r : Reg), exec i s = .next t → destReg i ≠ some r → t.reg r = s.reg r

/-- 10_state.md R37 (the GETC and IN clause with the spec's decision D13): only the listed instructions change COND. -/
def Obligations.CondWritersAreListed : Prop :=
  ∀ (i : Instr) (s t : State), exec i s = .next t → mayWriteCond s.params i = false → t.cond = s.cond

/-- 10_state.md R34: only BR, JMP, JSR and JSRR change the fetch-incremented PC. -/
def Obligations.PcWritersAreListed : Prop :=
  ∀ (i : Instr) (s t : State), exec i s = .next t → mayWritePc i = false → t.pc = s.pc

/-- 20_memory.md R68 and R70: a cell changes only where a store writes it, or by a poll of an instruction that reads
`KBSR_ADDR`, which changes the two device cells. -/
def Obligations.CellsChangeByStoreOrPollOnly : Prop :=
  ∀ (i : Instr) (s t : State) (a : Word), exec i s = .next t → storeAddr i s ≠ some a →
    (s.params.kbsrAddr ∈ readAddrs i s → a ≠ s.params.kbsrAddr ∧ a ≠ s.params.kbdrAddr) → t.cell a = s.cell a

/-- 10_state.md R56, R42 and 00_scope.md R8: a step only adds bytes to the console output, never clears `cancel_req`, and
changes no parameter. -/
def Obligations.OutputOnlyGrows : Prop :=
  ∀ s t : State, step s = .next t →
    (∃ bs, t.outBytes = s.outBytes ++ bs) ∧ t.cancelReq = s.cancelReq ∧ t.params = s.params ∧
    t.whenEmpty = s.whenEmpty

/-- 10_state.md R38: only BR reads COND: two states that differ in COND alone have outcomes that differ in COND alone. -/
def Obligations.OnlyBrReadsCond : Prop :=
  ∀ (i : Instr) (s : State) (c : Cond), (∀ n z p off9, i ≠ .br n z p off9) →
    AgreeButCond (exec i s) (exec i { s with cond := c })

/-- The invariant of the machine (20_memory.md R60, R62; 60_exceptions.md R242; 40_fetch_execute.md R129) is kept by every
step. -/
def Obligations.EveryStepKeepsTheInvariant : Prop :=
  ∀ s t : State, s.Inv → step s = .next t → t.Inv

/-- The invariant holds at reset. -/
def Obligations.ResetMeetsTheInvariant : Prop := State.reset.Inv

/-- The invariant survives what the host and the console do between steps (10_state.md R51, R53). -/
def Obligations.OutsideInputsKeepTheInvariant : Prop :=
  ∀ (s : State) (es : List InputEvent), s.Inv → (s.arriveInput es).Inv ∧ s.requestCancel.Inv

/-- 10_state.md R48 and R49: at launch, whatever the open values are, the core is running, with the cancellation request as
the host chose, and a request made before launch is honoured at once; `State.reset` is such a launch with `cancel_req` clear. -/
def Obligations.LaunchIsRunning : Prop :=
  (∀ (g : RegFile) (c : Cond) (m : Memory) (pc : Word) (req : Bool) (es : List InputEvent) (e : WhenEmpty) (p : Params),
    let s := launch g c m pc req es e p
    s.run = .running ∧ s.cancelReq = req ∧
    (req = true → ∃ t, step s = .next t ∧ Ended .cancelled s t)) ∧
  State.reset.run = .running ∧ State.reset.cancelReq = false ∧
  ∃ g c m pc es e p, State.reset = launch g c m pc false es e p

/-- 70_reset_and_hazards.md R272: word k of an image goes to cell `origin + k - 1`, and no other cell changes. -/
def Obligations.ImageWordsGoToConsecutiveCells : Prop :=
  ∀ (m m' : Memory) (origin : Word) (ws : List Word), loadImage m (origin :: ws) = some m' →
    (∀ (k : Nat) (w : Word), ws[k]? = some w → m'.read (origin.toNat + k) = w) ∧
    (∀ a, a < origin.toNat ∨ origin.toNat + ws.length ≤ a → m'.read a = m.read a) ∧
    (m.wf → m'.wf)

/-! ### Encoding -/

/-- The words of spec/30_encoding.md R112 and of the examples of the instruction rules decode to their instructions. -/
def Obligations.ExampleWordsDecode : Prop :=
  decode 0x1283 = .addReg .r1 .r2 .r3 ∧ decode 0x12BF = .addImm .r1 .r2 (-1) ∧ decode 0x997F = .not .r4 .r5 ∧
  decode 0x05FD = .br false true false (-3) ∧ decode 0xC1C0 = .jmp .r7 ∧ decode 0x480F = .jsr 15 ∧
  decode 0x4100 = .jsrr .r4 ∧ decode 0xA213 = .ldi .r1 19 ∧ decode 0x68BF = .ldr .r4 .r2 (-1) ∧
  decode 0x7B9F = .str .r5 .r6 31 ∧ decode 0xF025 = .trap 0x25 ∧ decode 0x8000 = .rti ∧ decode 0xD123 = .res

/-- 30_encoding.md R92 to R104: decoding an instruction's word gives the instruction back, with every operand at every value
of its field. -/
def Obligations.DecodeAfterEncodeIsTheInstruction : Prop :=
  ∀ i : Instr, decode (encode i) = i

/-- 30_encoding.md R92 to R104 and R107: a word decodes to an instruction exactly when it spells it by the format tables. -/
def Obligations.DecodeIsTheFormatTables : Prop :=
  ∀ (w : Word) (i : Instr), decode w = i ↔ HasFormat i w

/-- 30_encoding.md R107: every word matches the table row of its instruction and no other row. -/
def Obligations.OpcodeRowsPartitionTheWords : Prop :=
  ∀ w : Word, rowMatches (rowOf (decode w)) w = true ∧
    ∀ i : Instr, rowMatches (rowOf i) w = true → rowOf i = rowOf (decode w)

/-- 30_encoding.md R106 with the spec's decision D3 (log 16): words that differ in ignored bits alone decode alike. -/
def Obligations.IgnoredBitsDoNotMatter : Prop :=
  ∀ w x : Word, (w ^^^ x) &&& ~~~(ignoredBits (decode w)) = 0 → decode x = decode w
end

