-- ==== Sys2Proof/Laws/Decode.lean ====
section
/-! SUPPORT. The small lemmas of the decoder's parts: a bit, a register field and the opcode as parts of the word, and a bit of
an encoded instruction as a bit of the part it lies in. -/

namespace Sys2Proof

theorem Reg.ofBits_eq (b : BitVec 3) (r : Reg) :
    Reg.ofBits (b.getLsbD 2) (b.getLsbD 1) (b.getLsbD 0) = r ↔ b = r.bits := by
  revert b; cases r <;> decide

theorem Opcode.ofBits_eq (b : BitVec 4) (op : Opcode) :
    Opcode.ofBits (b.getLsbD 3) (b.getLsbD 2) (b.getLsbD 1) (b.getLsbD 0) = op ↔ b = op.bits := by
  revert b; cases op <;> decide

/-- A register field names `r` exactly when its three bits are `r`'s number. -/
theorem regField_eq (w : Word) (lo : Nat) (r : Reg) : regField w lo = r ↔ w.extractLsb' lo 3 = r.bits := by
  rw [← Reg.ofBits_eq]
  simp [regField, bit]

/-- The opcode is `op` exactly when bits 15 to 12 are `op`'s number. -/
theorem opcodeOf_eq (w : Word) (op : Opcode) : opcodeOf w = op ↔ w.extractLsb' 12 4 = op.bits := by
  rw [← Opcode.ofBits_eq]
  simp [opcodeOf, bit]

/-- A bit read as a one-bit field. -/
theorem bit_eq (w : Word) (i : Nat) (b : Bool) : bit w i = b ↔ w.extractLsb' i 1 = BitVec.ofBool b := by
  have h : ∀ x : BitVec 1, ∀ b, x.getLsbD 0 = b ↔ x = BitVec.ofBool b := by decide
  rw [← h]
  simp [bit]

/-- Every opcode bit of a word, from the opcode's number. -/
theorem opcodeOf_bits (w : Word) : (opcodeOf w).bits = w.extractLsb' 12 4 := ((opcodeOf_eq w _).1 rfl).symm

/-- Every bit of a register field, from the register's number. -/
theorem regField_bits (w : Word) (lo : Nat) : (regField w lo).bits = w.extractLsb' lo 3 :=
  ((regField_eq w lo _).1 rfl).symm

end Sys2Proof
end

