-- ==== Sys2Proof/Laws/Memory.lean ====
section
/-! SUPPORT. The laws of memory: a read after a write, the canonical form kept by every operation, and equality of canonical
memories that read alike. -/

namespace Sys2Proof.Machine

/-! ### Reads -/

theorem Memory.read_erase_same (m : Memory) (a : Nat) : (m.erase a).read a = Memory.background := by
  induction m with
  | nil => rfl
  | cons c m ih =>
    by_cases h : c.1 = a
    · simp [Memory.erase, h, ih]
    · simp [Memory.erase, Memory.read, h, ih]

theorem Memory.read_erase_other (m : Memory) {a b : Nat} (hb : b ≠ a) : (m.erase a).read b = m.read b := by
  induction m with
  | nil => rfl
  | cons c m ih =>
    by_cases h : c.1 = a
    · have : c.1 ≠ b := fun e => hb (e.symm.trans h)
      rw [Memory.erase, if_pos h, ih, Memory.read, if_neg this]
    · simp [Memory.erase, Memory.read, h, ih]

theorem Memory.read_insert_other (m : Memory) {a b : Nat} (v : Word) (hb : b ≠ a) :
    (m.insert a v).read b = m.read b := by
  induction m with
  | nil => simp [Memory.insert, Memory.read, Ne.symm hb]
  | cons c m ih =>
    by_cases h : a < c.1
    · simp [Memory.insert, Memory.read, h, Ne.symm hb]
    · simp [Memory.insert, Memory.read, h, ih]

theorem Memory.not_mem_erase (m : Memory) (a : Nat) : ∀ c ∈ m.erase a, c ∈ m ∧ c.1 ≠ a := by
  induction m with
  | nil => simp [Memory.erase]
  | cons d m ih =>
    intro c hc
    by_cases h : d.1 = a
    · rw [Memory.erase, if_pos h] at hc
      exact ⟨.tail _ (ih c hc).1, (ih c hc).2⟩
    · rw [Memory.erase, if_neg h] at hc
      rcases List.mem_cons.1 hc with rfl | hc
      · exact ⟨.head _, h⟩
      · exact ⟨.tail _ (ih c hc).1, (ih c hc).2⟩

theorem Memory.read_insert_same (m : Memory) (a : Nat) (v : Word) (h : ∀ c ∈ m, c.1 ≠ a) :
    (m.insert a v).read a = v := by
  induction m with
  | nil => simp [Memory.insert, Memory.read]
  | cons c m ih =>
    have hc := h c (.head _)
    have ih := ih fun d hd => h d (.tail _ hd)
    by_cases ha : a < c.1
    · simp [Memory.insert, Memory.read, ha]
    · simp [Memory.insert, Memory.read, ha, hc, ih]

/-- A read after a write to the same address gives the value written. -/
theorem Memory.read_write_same (m : Memory) (a : Nat) (v : Word) : (m.write a v).read a = v := by
  unfold Memory.write
  split
  · next h => rw [Memory.read_erase_same, h]
  · exact Memory.read_insert_same _ _ _ fun c hc => (Memory.not_mem_erase m a c hc).2

/-- A write leaves every other address alone. -/
theorem Memory.read_write_other (m : Memory) (a : Nat) (v : Word) (b : Nat) (hb : b ≠ a) :
    (m.write a v).read b = m.read b := by
  unfold Memory.write
  split
  · exact Memory.read_erase_other m hb
  · rw [Memory.read_insert_other _ _ hb, Memory.read_erase_other m hb]

/-! ### The canonical form -/

theorem Memory.erase_wf {m : Memory} (a : Nat) (h : m.wf) : (m.erase a).wf := by
  refine ⟨?_, fun c hc => h.2 c (Memory.not_mem_erase m a c hc).1⟩
  have hp := h.1
  clear h
  induction m with
  | nil => exact .nil
  | cons d m ih =>
    have ⟨hd, hm⟩ := List.pairwise_cons.1 hp
    by_cases hda : d.1 = a
    · rw [Memory.erase, if_pos hda]; exact ih hm
    · rw [Memory.erase, if_neg hda]
      exact List.pairwise_cons.2 ⟨fun c hc => hd c (Memory.not_mem_erase m a c hc).1, ih hm⟩

theorem Memory.mem_insert (m : Memory) (a : Nat) (v : Word) : ∀ c ∈ m.insert a v, c = (a, v) ∨ c ∈ m := by
  induction m with
  | nil => simp [Memory.insert]
  | cons d m ih =>
    intro c hc
    by_cases h : a < d.1
    · rw [Memory.insert, if_pos h] at hc
      rcases List.mem_cons.1 hc with rfl | hc
      · exact .inl rfl
      · exact .inr hc
    · rw [Memory.insert, if_neg h] at hc
      rcases List.mem_cons.1 hc with rfl | hc
      · exact .inr (.head _)
      · exact (ih c hc).imp id (.tail _)

theorem Memory.insert_wf {m : Memory} {a : Nat} {v : Word} (h : m.wf) (ha : a < 65536) (hv : v ≠ Memory.background)
    (hn : ∀ c ∈ m, c.1 ≠ a) : (m.insert a v).wf := by
  refine ⟨?_, fun c hc => ?_⟩
  · have hp := h.1
    clear h
    induction m with
    | nil => exact List.pairwise_singleton ..
    | cons d m ih =>
      have ⟨hd, hm⟩ := List.pairwise_cons.1 hp
      by_cases hda : a < d.1
      · rw [Memory.insert, if_pos hda]
        refine List.pairwise_cons.2 ⟨fun c hc => ?_, hp⟩
        rcases List.mem_cons.1 hc with rfl | hc
        · exact hda
        · exact Nat.lt_trans hda (hd c hc)
      · rw [Memory.insert, if_neg hda]
        have hlt : d.1 < a := by have := hn d (.head _); omega
        refine List.pairwise_cons.2 ⟨fun c hc => ?_, ih (fun c hc => hn c (.tail _ hc)) hm⟩
        rcases Memory.mem_insert m a v c hc with rfl | hc
        · exact hlt
        · exact hd c hc
  · rcases Memory.mem_insert m a v c hc with rfl | hc
    · exact ⟨ha, hv⟩
    · exact h.2 c hc

/-- A write inside the address space keeps the canonical form. -/
theorem Memory.write_wf {m : Memory} {a : Nat} (v : Word) (h : m.wf) (ha : a < 65536) : (m.write a v).wf := by
  unfold Memory.write
  split
  · exact Memory.erase_wf a h
  · next hv => exact Memory.insert_wf (Memory.erase_wf a h) ha hv fun c hc => (Memory.not_mem_erase m a c hc).2

/-- Every cell write of the machine keeps the canonical form. -/
theorem State.setCell_mem_wf {s : State} (a v : Word) (h : s.mem.wf) : (s.setCell a v).mem.wf :=
  Memory.write_wf v h a.isLt

/-- The memory of the reset state has the canonical form. -/
theorem reset_mem_wf : State.reset.mem.wf := by decide

/-! ### Equal reads, equal memories -/

theorem Memory.read_of_lt_all (m : Memory) (a : Nat) (h : ∀ c ∈ m, a < c.1) : m.read a = Memory.background := by
  induction m with
  | nil => rfl
  | cons c m ih =>
    have : c.1 ≠ a := by have := h c (.head _); omega
    rw [Memory.read, if_neg this, ih fun d hd => h d (.tail _ hd)]

theorem Memory.wf_tail {c : MemCell} {m : Memory} (h : Memory.wf (c :: m)) : Memory.wf m :=
  ⟨(List.pairwise_cons.1 h.1).2, fun d hd => h.2 d (.tail _ hd)⟩

/-- Two memories in canonical form that read alike at every address are the same list. -/
theorem Memory.eq_of_read_eq {m n : Memory} (hm : m.wf) (hn : n.wf) (h : ∀ a, m.read a = n.read a) : m = n := by
  induction m generalizing n with
  | nil =>
    cases n with
    | nil => rfl
    | cons d n =>
      have := h d.1
      rw [Memory.read, Memory.read, if_pos rfl] at this
      exact absurd this.symm (hn.2 d (.head _)).2
  | cons c m ih =>
    cases n with
    | nil =>
      have := h c.1
      rw [Memory.read, Memory.read, if_pos rfl] at this
      exact absurd this (hm.2 c (.head _)).2
    | cons d n =>
      have hcm := (List.pairwise_cons.1 hm.1).1
      have hdn := (List.pairwise_cons.1 hn.1).1
      have key : c.1 = d.1 := by
        rcases Nat.lt_trichotomy c.1 d.1 with hlt | heq | hgt
        · have hr := h c.1
          rw [Memory.read, if_pos rfl, Memory.read_of_lt_all (d :: n) c.1 ?_] at hr
          · exact absurd hr (hm.2 c (.head _)).2
          · intro e he
            rcases List.mem_cons.1 he with rfl | he
            · exact hlt
            · exact Nat.lt_trans hlt (hdn e he)
        · exact heq
        · have hr := h d.1
          rw [Memory.read_of_lt_all (c :: m) d.1 ?_, Memory.read, if_pos rfl] at hr
          · exact absurd hr.symm (hn.2 d (.head _)).2
          · intro e he
            rcases List.mem_cons.1 he with rfl | he
            · exact hgt
            · exact Nat.lt_trans hgt (hcm e he)
      have val : c.2 = d.2 := by
        have hr := h c.1
        rwa [Memory.read, if_pos rfl, Memory.read, if_pos key.symm] at hr
      have : c = d := Prod.ext key val
      subst this
      congr 1
      refine ih (Memory.wf_tail hm) (Memory.wf_tail hn) fun a => ?_
      by_cases ha : c.1 = a
      · subst ha
        rw [Memory.read_of_lt_all m _ hcm, Memory.read_of_lt_all n _ hdn]
      · have hr := h a
        rwa [Memory.read, if_neg ha, Memory.read, if_neg ha] at hr

end Sys2Proof.Machine
end

