-- ==== Sys2Proof/Laws/State.lean ====
section
/-! SUPPORT. One lemma per field per update of State, true by rfl, and one per observer (`reg`, `cell`, `outBytes`) per update,
so that no proof unfolds a record update. -/

namespace Sys2Proof.Machine

/-! ### Register file -/

theorem RegFile.get_set_same (f : RegFile) (r : Reg) (v : Word) : (f.set r v).get r = v := by
  cases r <;> rfl

theorem RegFile.get_set_other (f : RegFile) {r d : Reg} (v : Word) (h : r ≠ d) : (f.set d v).get r = f.get r := by
  cases r <;> cases d <;> first | rfl | exact absurd rfl h

/-! ### Fields -/


@[simp] theorem State.setReg_regs (s : State) (r : Reg) (v : Word) : (s.setReg r v).regs = s.regs.set r v := rfl
@[simp] theorem State.setReg_pc (s : State) (r : Reg) (v : Word) : (s.setReg r v).pc = s.pc := rfl
@[simp] theorem State.setReg_cond (s : State) (r : Reg) (v : Word) : (s.setReg r v).cond = s.cond := rfl
@[simp] theorem State.setReg_mem (s : State) (r : Reg) (v : Word) : (s.setReg r v).mem = s.mem := rfl
@[simp] theorem State.setReg_run (s : State) (r : Reg) (v : Word) : (s.setReg r v).run = s.run := rfl
@[simp] theorem State.setReg_cancelReq (s : State) (r : Reg) (v : Word) : (s.setReg r v).cancelReq = s.cancelReq := rfl
@[simp] theorem State.setReg_ir (s : State) (r : Reg) (v : Word) : (s.setReg r v).ir = s.ir := rfl
@[simp] theorem State.setReg_waiting (s : State) (r : Reg) (v : Word) : (s.setReg r v).waiting = s.waiting := rfl
@[simp] theorem State.setReg_input (s : State) (r : Reg) (v : Word) : (s.setReg r v).input = s.input := rfl
@[simp] theorem State.setReg_whenEmpty (s : State) (r : Reg) (v : Word) : (s.setReg r v).whenEmpty = s.whenEmpty := rfl
@[simp] theorem State.setReg_output (s : State) (r : Reg) (v : Word) : (s.setReg r v).output = s.output := rfl
@[simp] theorem State.setReg_params (s : State) (r : Reg) (v : Word) : (s.setReg r v).params = s.params := rfl

@[simp] theorem State.setPc_regs (s : State) (v : Word) : (s.setPc v).regs = s.regs := rfl
@[simp] theorem State.setPc_pc (s : State) (v : Word) : (s.setPc v).pc = v := rfl
@[simp] theorem State.setPc_cond (s : State) (v : Word) : (s.setPc v).cond = s.cond := rfl
@[simp] theorem State.setPc_mem (s : State) (v : Word) : (s.setPc v).mem = s.mem := rfl
@[simp] theorem State.setPc_run (s : State) (v : Word) : (s.setPc v).run = s.run := rfl
@[simp] theorem State.setPc_cancelReq (s : State) (v : Word) : (s.setPc v).cancelReq = s.cancelReq := rfl
@[simp] theorem State.setPc_ir (s : State) (v : Word) : (s.setPc v).ir = s.ir := rfl
@[simp] theorem State.setPc_waiting (s : State) (v : Word) : (s.setPc v).waiting = s.waiting := rfl
@[simp] theorem State.setPc_input (s : State) (v : Word) : (s.setPc v).input = s.input := rfl
@[simp] theorem State.setPc_whenEmpty (s : State) (v : Word) : (s.setPc v).whenEmpty = s.whenEmpty := rfl
@[simp] theorem State.setPc_output (s : State) (v : Word) : (s.setPc v).output = s.output := rfl
@[simp] theorem State.setPc_params (s : State) (v : Word) : (s.setPc v).params = s.params := rfl

@[simp] theorem State.setCond_regs (s : State) (c : Cond) : (s.setCond c).regs = s.regs := rfl
@[simp] theorem State.setCond_pc (s : State) (c : Cond) : (s.setCond c).pc = s.pc := rfl
@[simp] theorem State.setCond_cond (s : State) (c : Cond) : (s.setCond c).cond = c := rfl
@[simp] theorem State.setCond_mem (s : State) (c : Cond) : (s.setCond c).mem = s.mem := rfl
@[simp] theorem State.setCond_run (s : State) (c : Cond) : (s.setCond c).run = s.run := rfl
@[simp] theorem State.setCond_cancelReq (s : State) (c : Cond) : (s.setCond c).cancelReq = s.cancelReq := rfl
@[simp] theorem State.setCond_ir (s : State) (c : Cond) : (s.setCond c).ir = s.ir := rfl
@[simp] theorem State.setCond_waiting (s : State) (c : Cond) : (s.setCond c).waiting = s.waiting := rfl
@[simp] theorem State.setCond_input (s : State) (c : Cond) : (s.setCond c).input = s.input := rfl
@[simp] theorem State.setCond_whenEmpty (s : State) (c : Cond) : (s.setCond c).whenEmpty = s.whenEmpty := rfl
@[simp] theorem State.setCond_output (s : State) (c : Cond) : (s.setCond c).output = s.output := rfl
@[simp] theorem State.setCond_params (s : State) (c : Cond) : (s.setCond c).params = s.params := rfl

@[simp] theorem State.setRun_regs (s : State) (r : RunState) : (s.setRun r).regs = s.regs := rfl
@[simp] theorem State.setRun_pc (s : State) (r : RunState) : (s.setRun r).pc = s.pc := rfl
@[simp] theorem State.setRun_cond (s : State) (r : RunState) : (s.setRun r).cond = s.cond := rfl
@[simp] theorem State.setRun_mem (s : State) (r : RunState) : (s.setRun r).mem = s.mem := rfl
@[simp] theorem State.setRun_run (s : State) (r : RunState) : (s.setRun r).run = r := rfl
@[simp] theorem State.setRun_cancelReq (s : State) (r : RunState) : (s.setRun r).cancelReq = s.cancelReq := rfl
@[simp] theorem State.setRun_ir (s : State) (r : RunState) : (s.setRun r).ir = s.ir := rfl
@[simp] theorem State.setRun_waiting (s : State) (r : RunState) : (s.setRun r).waiting = s.waiting := rfl
@[simp] theorem State.setRun_input (s : State) (r : RunState) : (s.setRun r).input = s.input := rfl
@[simp] theorem State.setRun_whenEmpty (s : State) (r : RunState) : (s.setRun r).whenEmpty = s.whenEmpty := rfl
@[simp] theorem State.setRun_output (s : State) (r : RunState) : (s.setRun r).output = s.output := rfl
@[simp] theorem State.setRun_params (s : State) (r : RunState) : (s.setRun r).params = s.params := rfl

@[simp] theorem State.setWaiting_regs (s : State) (w : Option Waiting) : (s.setWaiting w).regs = s.regs := rfl
@[simp] theorem State.setWaiting_pc (s : State) (w : Option Waiting) : (s.setWaiting w).pc = s.pc := rfl
@[simp] theorem State.setWaiting_cond (s : State) (w : Option Waiting) : (s.setWaiting w).cond = s.cond := rfl
@[simp] theorem State.setWaiting_mem (s : State) (w : Option Waiting) : (s.setWaiting w).mem = s.mem := rfl
@[simp] theorem State.setWaiting_run (s : State) (w : Option Waiting) : (s.setWaiting w).run = s.run := rfl
@[simp] theorem State.setWaiting_cancelReq (s : State) (w : Option Waiting) : (s.setWaiting w).cancelReq = s.cancelReq := rfl
@[simp] theorem State.setWaiting_ir (s : State) (w : Option Waiting) : (s.setWaiting w).ir = s.ir := rfl
@[simp] theorem State.setWaiting_waiting (s : State) (w : Option Waiting) : (s.setWaiting w).waiting = w := rfl
@[simp] theorem State.setWaiting_input (s : State) (w : Option Waiting) : (s.setWaiting w).input = s.input := rfl
@[simp] theorem State.setWaiting_whenEmpty (s : State) (w : Option Waiting) : (s.setWaiting w).whenEmpty = s.whenEmpty := rfl
@[simp] theorem State.setWaiting_output (s : State) (w : Option Waiting) : (s.setWaiting w).output = s.output := rfl
@[simp] theorem State.setWaiting_params (s : State) (w : Option Waiting) : (s.setWaiting w).params = s.params := rfl

@[simp] theorem State.setIr_regs (s : State) (w : Word) : (s.setIr w).regs = s.regs := rfl
@[simp] theorem State.setIr_pc (s : State) (w : Word) : (s.setIr w).pc = s.pc := rfl
@[simp] theorem State.setIr_cond (s : State) (w : Word) : (s.setIr w).cond = s.cond := rfl
@[simp] theorem State.setIr_mem (s : State) (w : Word) : (s.setIr w).mem = s.mem := rfl
@[simp] theorem State.setIr_run (s : State) (w : Word) : (s.setIr w).run = s.run := rfl
@[simp] theorem State.setIr_cancelReq (s : State) (w : Word) : (s.setIr w).cancelReq = s.cancelReq := rfl
@[simp] theorem State.setIr_ir (s : State) (w : Word) : (s.setIr w).ir = w := rfl
@[simp] theorem State.setIr_waiting (s : State) (w : Word) : (s.setIr w).waiting = s.waiting := rfl
@[simp] theorem State.setIr_input (s : State) (w : Word) : (s.setIr w).input = s.input := rfl
@[simp] theorem State.setIr_whenEmpty (s : State) (w : Word) : (s.setIr w).whenEmpty = s.whenEmpty := rfl
@[simp] theorem State.setIr_output (s : State) (w : Word) : (s.setIr w).output = s.output := rfl
@[simp] theorem State.setIr_params (s : State) (w : Word) : (s.setIr w).params = s.params := rfl

@[simp] theorem State.setInput_regs (s : State) (i : List InputEvent) : (s.setInput i).regs = s.regs := rfl
@[simp] theorem State.setInput_pc (s : State) (i : List InputEvent) : (s.setInput i).pc = s.pc := rfl
@[simp] theorem State.setInput_cond (s : State) (i : List InputEvent) : (s.setInput i).cond = s.cond := rfl
@[simp] theorem State.setInput_mem (s : State) (i : List InputEvent) : (s.setInput i).mem = s.mem := rfl
@[simp] theorem State.setInput_run (s : State) (i : List InputEvent) : (s.setInput i).run = s.run := rfl
@[simp] theorem State.setInput_cancelReq (s : State) (i : List InputEvent) : (s.setInput i).cancelReq = s.cancelReq := rfl
@[simp] theorem State.setInput_ir (s : State) (i : List InputEvent) : (s.setInput i).ir = s.ir := rfl
@[simp] theorem State.setInput_waiting (s : State) (i : List InputEvent) : (s.setInput i).waiting = s.waiting := rfl
@[simp] theorem State.setInput_input (s : State) (i : List InputEvent) : (s.setInput i).input = i := rfl
@[simp] theorem State.setInput_whenEmpty (s : State) (i : List InputEvent) : (s.setInput i).whenEmpty = s.whenEmpty := rfl
@[simp] theorem State.setInput_output (s : State) (i : List InputEvent) : (s.setInput i).output = s.output := rfl
@[simp] theorem State.setInput_params (s : State) (i : List InputEvent) : (s.setInput i).params = s.params := rfl

@[simp] theorem State.setCell_regs (s : State) (a v : Word) : (s.setCell a v).regs = s.regs := rfl
@[simp] theorem State.setCell_pc (s : State) (a v : Word) : (s.setCell a v).pc = s.pc := rfl
@[simp] theorem State.setCell_cond (s : State) (a v : Word) : (s.setCell a v).cond = s.cond := rfl
@[simp] theorem State.setCell_mem (s : State) (a v : Word) : (s.setCell a v).mem = s.mem.write a.toNat v := rfl
@[simp] theorem State.setCell_run (s : State) (a v : Word) : (s.setCell a v).run = s.run := rfl
@[simp] theorem State.setCell_cancelReq (s : State) (a v : Word) : (s.setCell a v).cancelReq = s.cancelReq := rfl
@[simp] theorem State.setCell_ir (s : State) (a v : Word) : (s.setCell a v).ir = s.ir := rfl
@[simp] theorem State.setCell_waiting (s : State) (a v : Word) : (s.setCell a v).waiting = s.waiting := rfl
@[simp] theorem State.setCell_input (s : State) (a v : Word) : (s.setCell a v).input = s.input := rfl
@[simp] theorem State.setCell_whenEmpty (s : State) (a v : Word) : (s.setCell a v).whenEmpty = s.whenEmpty := rfl
@[simp] theorem State.setCell_output (s : State) (a v : Word) : (s.setCell a v).output = s.output := rfl
@[simp] theorem State.setCell_params (s : State) (a v : Word) : (s.setCell a v).params = s.params := rfl

@[simp] theorem State.emit_regs (s : State) (es : List OutEvent) : (s.emit es).regs = s.regs := rfl
@[simp] theorem State.emit_pc (s : State) (es : List OutEvent) : (s.emit es).pc = s.pc := rfl
@[simp] theorem State.emit_cond (s : State) (es : List OutEvent) : (s.emit es).cond = s.cond := rfl
@[simp] theorem State.emit_mem (s : State) (es : List OutEvent) : (s.emit es).mem = s.mem := rfl
@[simp] theorem State.emit_run (s : State) (es : List OutEvent) : (s.emit es).run = s.run := rfl
@[simp] theorem State.emit_cancelReq (s : State) (es : List OutEvent) : (s.emit es).cancelReq = s.cancelReq := rfl
@[simp] theorem State.emit_ir (s : State) (es : List OutEvent) : (s.emit es).ir = s.ir := rfl
@[simp] theorem State.emit_waiting (s : State) (es : List OutEvent) : (s.emit es).waiting = s.waiting := rfl
@[simp] theorem State.emit_input (s : State) (es : List OutEvent) : (s.emit es).input = s.input := rfl
@[simp] theorem State.emit_whenEmpty (s : State) (es : List OutEvent) : (s.emit es).whenEmpty = s.whenEmpty := rfl
@[simp] theorem State.emit_output (s : State) (es : List OutEvent) : (s.emit es).output = s.output ++ es := rfl
@[simp] theorem State.emit_params (s : State) (es : List OutEvent) : (s.emit es).params = s.params := rfl

/-! ### Observers -/

@[simp] theorem State.setReg_reg (s : State) (d : Reg) (v : Word) (r : Reg) :
    (s.setReg d v).reg r = if r = d then v else s.reg r := by
  split
  · next h => subst h; exact RegFile.get_set_same ..
  · next h => exact RegFile.get_set_other _ _ h

@[simp] theorem State.setCell_cell (s : State) (a v b : Word) :
    (s.setCell a v).cell b = if b = a then v else s.cell b := by
  split
  · next h => subst h; exact Memory.read_write_same ..
  · next h => exact Memory.read_write_other _ _ _ _ fun e => h (BitVec.eq_of_toNat_eq e)

theorem bytesOf_append (xs ys : List OutEvent) : bytesOf (xs ++ ys) = bytesOf xs ++ bytesOf ys := by
  induction xs with
  | nil => rfl
  | cons e xs ih => cases e <;> simp [bytesOf, ih]

theorem bytesOf_map_byte (bs : List Byte) : bytesOf (bs.map .byte) = bs := by
  induction bs with
  | nil => rfl
  | cons b bs ih => simp [bytesOf, ih]

@[simp] theorem State.emit_outBytes (s : State) (es : List OutEvent) :
    (s.emit es).outBytes = s.outBytes ++ bytesOf es := bytesOf_append ..

@[simp] theorem State.setReg_cell (s : State) (r : Reg) (v : Word) (b : Word) : (s.setReg r v).cell b = s.cell b := rfl
@[simp] theorem State.setReg_outBytes (s : State) (r : Reg) (v : Word) : (s.setReg r v).outBytes = s.outBytes := rfl
@[simp] theorem State.setPc_reg (s : State) (v : Word) (x : Reg) : (s.setPc v).reg x = s.reg x := rfl
@[simp] theorem State.setPc_cell (s : State) (v : Word) (b : Word) : (s.setPc v).cell b = s.cell b := rfl
@[simp] theorem State.setPc_outBytes (s : State) (v : Word) : (s.setPc v).outBytes = s.outBytes := rfl
@[simp] theorem State.setCond_reg (s : State) (c : Cond) (x : Reg) : (s.setCond c).reg x = s.reg x := rfl
@[simp] theorem State.setCond_cell (s : State) (c : Cond) (b : Word) : (s.setCond c).cell b = s.cell b := rfl
@[simp] theorem State.setCond_outBytes (s : State) (c : Cond) : (s.setCond c).outBytes = s.outBytes := rfl
@[simp] theorem State.setRun_reg (s : State) (r : RunState) (x : Reg) : (s.setRun r).reg x = s.reg x := rfl
@[simp] theorem State.setRun_cell (s : State) (r : RunState) (b : Word) : (s.setRun r).cell b = s.cell b := rfl
@[simp] theorem State.setRun_outBytes (s : State) (r : RunState) : (s.setRun r).outBytes = s.outBytes := rfl
@[simp] theorem State.setWaiting_reg (s : State) (w : Option Waiting) (x : Reg) : (s.setWaiting w).reg x = s.reg x := rfl
@[simp] theorem State.setWaiting_cell (s : State) (w : Option Waiting) (b : Word) : (s.setWaiting w).cell b = s.cell b := rfl
@[simp] theorem State.setWaiting_outBytes (s : State) (w : Option Waiting) : (s.setWaiting w).outBytes = s.outBytes := rfl
@[simp] theorem State.setIr_reg (s : State) (w : Word) (x : Reg) : (s.setIr w).reg x = s.reg x := rfl
@[simp] theorem State.setIr_cell (s : State) (w : Word) (b : Word) : (s.setIr w).cell b = s.cell b := rfl
@[simp] theorem State.setIr_outBytes (s : State) (w : Word) : (s.setIr w).outBytes = s.outBytes := rfl
@[simp] theorem State.setInput_reg (s : State) (i : List InputEvent) (x : Reg) : (s.setInput i).reg x = s.reg x := rfl
@[simp] theorem State.setInput_cell (s : State) (i : List InputEvent) (b : Word) : (s.setInput i).cell b = s.cell b := rfl
@[simp] theorem State.setInput_outBytes (s : State) (i : List InputEvent) : (s.setInput i).outBytes = s.outBytes := rfl
@[simp] theorem State.setCell_reg (s : State) (a v : Word) (x : Reg) : (s.setCell a v).reg x = s.reg x := rfl
@[simp] theorem State.setCell_outBytes (s : State) (a v : Word) : (s.setCell a v).outBytes = s.outBytes := rfl
@[simp] theorem State.emit_reg (s : State) (es : List OutEvent) (x : Reg) : (s.emit es).reg x = s.reg x := rfl
@[simp] theorem State.emit_cell (s : State) (es : List OutEvent) (b : Word) : (s.emit es).cell b = s.cell b := rfl

/-- Putting back the input that is there changes nothing. -/
@[simp] theorem State.setInput_self (s : State) : s.setInput s.input = s := rfl

/-- A wait that is set twice is set once. -/
theorem State.setWaiting_self (s : State) {w : Option Waiting} (h : s.waiting = w) : s.setWaiting w = s := by
  subst h; rfl

end Sys2Proof.Machine
end

