-- ==== Sys2Proof/Laws/Ops.lean ====
section
/-! SUPPORT. One spec lemma per shared operation, which a proof cites instead of unfolding it: the console primitives, MemRead,
the fetch, fault entry and cancellation. -/

namespace Sys2Proof.Machine

/-! ### The console -/

theorem consolePoll_ready {s : State} {w : Word} {rest : List InputEvent} (h : PollFinds s w rest) :
    consolePoll s = (true, s) := by
  rcases h with ⟨b, h, _⟩ | ⟨h, _⟩ <;> simp [consolePoll, h]

theorem consolePoll_notReady {s : State} (h : PollFindsNothing s) :
    consolePoll s = (false, s.setInput s.input.tail) := by
  rcases h with h | ⟨rest, h⟩ <;> simp [consolePoll, h, State.setInput]
  rw [← h]

/-- A poll finds an input word or nothing. -/
theorem poll_cases (s : State) : (∃ w rest, PollFinds s w rest) ∨ PollFindsNothing s := by
  rcases h : s.input with _ | ⟨e, rest⟩
  · exact .inr (.inl h)
  · cases e with
    | byte b => exact .inl ⟨zext b, rest, .inl ⟨b, h, rfl⟩⟩
    | eof => exact .inl ⟨s.params.eofWord, rest, .inr ⟨h, rfl⟩⟩
    | notReady => exact .inr (.inr ⟨rest, h⟩)

/-- The answers before the next input are all `notReady`. -/
theorem inputAfterWait_spec (es : List InputEvent) :
    ∃ n, es = List.replicate n .notReady ++ inputAfterWait es := by
  induction es with
  | nil => exact ⟨0, rfl⟩
  | cons e es ih =>
    cases e with
    | notReady =>
      obtain ⟨n, hn⟩ := ih
      exact ⟨n + 1, by rw [List.replicate_succ, List.cons_append, inputAfterWait, ← hn]⟩
    | byte b => exact ⟨0, rfl⟩
    | eof => exact ⟨0, rfl⟩

theorem inputAfterWait_replicate (n : Nat) (es : List InputEvent) :
    inputAfterWait (List.replicate n .notReady ++ es) = inputAfterWait es := by
  induction n with
  | zero => rfl
  | succ n ih => rw [List.replicate_succ, List.cons_append, inputAfterWait, ih]

theorem inputAfterWait_head (es rest : List InputEvent) : inputAfterWait es ≠ .notReady :: rest := by
  induction es with
  | nil => simp [inputAfterWait]
  | cons e es ih => cases e <;> simp [inputAfterWait, ih]

/-- A blocking read that returns. -/
theorem consoleRead_returns {s : State} {w : Word} {rest : List InputEvent} (h : ReadReturns s w rest) :
    consoleRead s = some (w, s.setInput rest) := by
  rcases h with ⟨n, b, h, rfl⟩ | ⟨n, h, rfl⟩ | ⟨n, h, he, rfl, rfl⟩
  · simp [consoleRead, h, inputAfterWait_replicate, inputAfterWait]
  · simp [consoleRead, h, inputAfterWait_replicate, inputAfterWait]
  · have : inputAfterWait s.input = [] := by
      rw [h, ← List.append_nil (List.replicate n _), inputAfterWait_replicate]; rfl
    simp [consoleRead, this, he]

/-- A blocking read that does not return. -/
theorem consoleRead_blocks {s : State} (h : ReadBlocks s) : consoleRead s = none := by
  have : inputAfterWait s.input = [] := by
    have := h.1
    generalize s.input = es at this
    induction es with
    | nil => rfl
    | cons e es ih =>
      obtain rfl := this e (.head _)
      exact ih fun e he => this e (.tail _ he)
  simp [consoleRead, this, h.2]

/-- A blocking read returns or it does not. -/
theorem read_cases (s : State) : (∃ w rest, ReadReturns s w rest) ∨ ReadBlocks s := by
  obtain ⟨n, hn⟩ := inputAfterWait_spec s.input
  rcases h : inputAfterWait s.input with _ | ⟨e, rest⟩
  · rw [h, List.append_nil] at hn
    cases hw : s.whenEmpty with
    | eof => exact .inl ⟨_, [], .inr (.inr ⟨n, hn, hw, rfl, rfl⟩)⟩
    | blocks => exact .inr ⟨fun e he => (List.mem_replicate.1 (hn ▸ he)).2, hw⟩
  · rw [h] at hn
    cases e with
    | byte b => exact .inl ⟨_, rest, .inl ⟨n, b, hn, rfl⟩⟩
    | eof => exact .inl ⟨_, rest, .inr (.inl ⟨n, hn, rfl⟩)⟩
    | notReady => exact absurd h (inputAfterWait_head _ _)

/-- A ready poll's read takes the word that the poll found. -/
theorem PollFinds.read {s : State} {w : Word} {rest : List InputEvent} (h : PollFinds s w rest) :
    ReadReturns s w rest := by
  rcases h with ⟨b, h, hw⟩ | ⟨h, hw⟩
  · exact .inl ⟨0, b, h, hw⟩
  · exact .inr (.inl ⟨0, h, hw⟩)

/-! ### MemRead -/

/-- A ready poll: KBSR becomes 0x8000, then KBDR the input word. -/
theorem pollKeyboard_ready {s : State} {w : Word} {rest : List InputEvent} (h : PollFinds s w rest) :
    pollKeyboard s = ((s.setCell s.params.kbsrAddr 0x8000).setInput rest).setCell s.params.kbdrAddr w := by
  have hr : consoleRead (s.setCell s.params.kbsrAddr 0x8000) = some (w, (s.setCell s.params.kbsrAddr 0x8000).setInput rest) :=
    consoleRead_returns (PollFinds.read (s := s.setCell s.params.kbsrAddr 0x8000) h)
  rw [pollKeyboard, consolePoll_ready h]
  dsimp only
  rw [hr]
  rfl

/-- A poll that is not ready: KBSR becomes 0. -/
theorem pollKeyboard_notReady {s : State} (h : PollFindsNothing s) :
    pollKeyboard s = (s.setInput s.input.tail).setCell s.params.kbsrAddr 0x0000 := by
  simp [pollKeyboard, consolePoll_notReady h]

/-- MemRead away from `KBSR_ADDR` is pure. -/
theorem memRead_plain {a : Word} {s : State} (h : a ≠ s.params.kbsrAddr) : memRead a s = (s.cell a, s) := by
  simp [memRead, h]

/-- MemRead at `KBSR_ADDR` polls first. -/
theorem memRead_kbsr (s : State) :
    memRead s.params.kbsrAddr s = ((pollKeyboard s).cell s.params.kbsrAddr, pollKeyboard s) := by
  simp [memRead]

/-- Everything MemRead can do: nothing, or one poll of the keyboard, ready or not. -/
theorem memRead_state_cases (a : Word) (s : State) :
    (memRead a s).2 = s ∨
    a = s.params.kbsrAddr ∧ ((∃ w rest, PollFinds s w rest ∧
      (memRead a s).2 = ((s.setCell s.params.kbsrAddr 0x8000).setInput rest).setCell s.params.kbdrAddr w) ∨
      (PollFindsNothing s ∧ (memRead a s).2 = (s.setInput s.input.tail).setCell s.params.kbsrAddr 0x0000)) := by
  by_cases h : a = s.params.kbsrAddr
  · refine .inr ⟨h, ?_⟩
    subst h
    rw [memRead_kbsr]
    rcases poll_cases s with ⟨w, rest, hp⟩ | hp
    · exact .inl ⟨w, rest, hp, pollKeyboard_ready hp⟩
    · exact .inr ⟨hp, pollKeyboard_notReady hp⟩
  · exact .inl (by rw [memRead_plain h])

/-- MemRead changes memory and the console's input alone. -/
theorem memRead_frame (a : Word) (s : State) :
    (memRead a s).2 = { s with mem := (memRead a s).2.mem, input := (memRead a s).2.input } := by
  rcases memRead_state_cases a s with h | ⟨_, ⟨w, rest, _, h⟩ | ⟨_, h⟩⟩ <;> rw [h] <;> rfl

@[simp] theorem memRead_regs (a : Word) (s : State) : (memRead a s).2.regs = s.regs := by rw [memRead_frame]
@[simp] theorem memRead_pc (a : Word) (s : State) : (memRead a s).2.pc = s.pc := by rw [memRead_frame]
@[simp] theorem memRead_cond (a : Word) (s : State) : (memRead a s).2.cond = s.cond := by rw [memRead_frame]
@[simp] theorem memRead_run (a : Word) (s : State) : (memRead a s).2.run = s.run := by rw [memRead_frame]
@[simp] theorem memRead_cancelReq (a : Word) (s : State) : (memRead a s).2.cancelReq = s.cancelReq := by rw [memRead_frame]
@[simp] theorem memRead_ir (a : Word) (s : State) : (memRead a s).2.ir = s.ir := by rw [memRead_frame]
@[simp] theorem memRead_waiting (a : Word) (s : State) : (memRead a s).2.waiting = s.waiting := by rw [memRead_frame]
@[simp] theorem memRead_whenEmpty (a : Word) (s : State) : (memRead a s).2.whenEmpty = s.whenEmpty := by rw [memRead_frame]
@[simp] theorem memRead_output (a : Word) (s : State) : (memRead a s).2.output = s.output := by rw [memRead_frame]
@[simp] theorem memRead_params (a : Word) (s : State) : (memRead a s).2.params = s.params := by rw [memRead_frame]
@[simp] theorem memRead_reg (a : Word) (s : State) (r : Reg) : (memRead a s).2.reg r = s.reg r := by
  rw [State.reg, memRead_regs]; rfl
@[simp] theorem memRead_outBytes (a : Word) (s : State) : (memRead a s).2.outBytes = s.outBytes := by
  rw [State.outBytes, memRead_output]; rfl

/-- MemRead keeps the canonical form of memory. -/
theorem memRead_mem_wf (a : Word) {s : State} (h : s.mem.wf) : (memRead a s).2.mem.wf := by
  rcases memRead_state_cases a s with e | ⟨_, ⟨w, rest, _, e⟩ | ⟨_, e⟩⟩ <;> rw [e]
  · exact h
  · have h1 : (s.setCell s.params.kbsrAddr 0x8000).mem.wf := State.setCell_mem_wf _ _ h
    exact State.setCell_mem_wf (s := (s.setCell s.params.kbsrAddr 0x8000).setInput rest) _ _ h1
  · exact State.setCell_mem_wf (s := s.setInput s.input.tail) _ _ h

/-- MemWrite keeps the canonical form of memory. -/
theorem memWrite_mem_wf (a v : Word) {s : State} (h : s.mem.wf) : (memWrite a v s).mem.wf :=
  State.setCell_mem_wf a v h

/-! ### Fetch, fault entry, cancellation, results -/

@[simp] theorem fetch_ir (s : State) : (fetch s).ir = (memRead s.pc s).1 := rfl
@[simp] theorem fetch_pc (s : State) : (fetch s).pc = s.pc + 1 := rfl

/-- The fetch is a MemRead at `pc`, the word latched, and `pc` one further. -/
theorem fetch_eq (s : State) : fetch s = ((memRead s.pc s).2.setIr (memRead s.pc s).1).setPc (s.pc + 1) := rfl

/-- Away from `KBSR_ADDR` the fetch reads the cell and changes `ir` and `pc` alone. -/
theorem fetch_plain {s : State} (h : s.pc ≠ s.params.kbsrAddr) :
    fetch s = (s.setIr (s.cell s.pc)).setPc (s.pc + 1) := by
  rw [fetch_eq, memRead_plain h]

/-! The cause codes and recorded values of 60_exceptions.md R244. -/

@[simp] theorem FaultCause.code_illegalOpcode (op : BitVec 4) : (FaultCause.illegalOpcode op).code = 1 := rfl
@[simp] theorem FaultCause.code_unknownTrap (v : Byte) : (FaultCause.unknownTrap v).code = 2 := rfl
@[simp] theorem FaultCause.value_illegalOpcode (op : BitVec 4) : (FaultCause.illegalOpcode op).value = zext op := rfl
@[simp] theorem FaultCause.value_unknownTrap (v : Byte) : (FaultCause.unknownTrap v).value = zext v := rfl

/-- Fault entry sets the run state and nothing else. -/
theorem raiseFault_eq (cause : FaultCause) (s : State) :
    raiseFault cause s = s.setRun (.faulted ⟨cause, s.pc - 1, s.ir⟩) := rfl

/-- Honouring a cancellation sets the run state and nothing else. -/
theorem honourCancel_eq (s : State) : honourCancel s = s.setRun .cancelled := rfl

/-- Writing a result sets the destination and COND and nothing else. -/
theorem writeResult_eq (dr : Reg) (v : Word) (s : State) :
    writeResult dr v s = (s.setReg dr v).setCond (condOf v) := rfl

/-- A load is a MemRead and then a result written. -/
theorem loadFrom_eq (dr : Reg) (ea : Word) (s : State) :
    loadFrom dr ea s = writeResult dr (memRead ea s).1 (memRead ea s).2 := rfl

/-- A store is one cell written. -/
theorem memWrite_eq (a v : Word) (s : State) : memWrite a v s = s.setCell a v := rfl

end Sys2Proof.Machine
end

