-- ==== Sys2Proof/Laws/PerInstr.lean ====
section
/-! SUPPORT. What holds of every instruction as syntax, one lemma per constructor: bits 15 to 12 of its word are the opcode number
that 30_encoding.md R92 gives it. -/

namespace Sys2Proof.Laws.OpcodeField

/-- The opcode number of each instruction (30_encoding.md R92). -/
def opcodeNumber : Instr → BitVec 4
  | .br _ _ _ _ => 0x0
  | .addReg _ _ _ | .addImm _ _ _ => 0x1
  | .ld _ _ => 0x2
  | .st _ _ => 0x3
  | .jsr _ | .jsrr _ => 0x4
  | .andReg _ _ _ | .andImm _ _ _ => 0x5
  | .ldr _ _ _ => 0x6
  | .str _ _ _ => 0x7
  | .rti => 0x8
  | .not _ _ => 0x9
  | .ldi _ _ => 0xA
  | .sti _ _ => 0xB
  | .jmp _ => 0xC
  | .res => 0xD
  | .lea _ _ => 0xE
  | .trap _ => 0xF

def Statement (i : Instr) : Prop := (encode i).extractLsb' 12 4 = opcodeNumber i

/-- Four equal bits make two opcode numbers equal. -/
theorem eq_of_bits {x y : BitVec 4} (h0 : x.getLsbD 0 = y.getLsbD 0) (h1 : x.getLsbD 1 = y.getLsbD 1)
    (h2 : x.getLsbD 2 = y.getLsbD 2) (h3 : x.getLsbD 3 = y.getLsbD 3) : x = y := by
  apply BitVec.eq_of_getLsbD_eq
  intro j hj
  interval_cases j <;> assumption

theorem addReg (dr sr1 sr2 : Reg) : Statement (.addReg dr sr1 sr2) := by
  apply eq_of_bits <;> simp only [encode, opcodeNumber, BitVec.getLsbD_extractLsb', BitVec.getLsbD_append] <;> rfl

theorem addImm (dr sr1 : Reg) (imm5 : BitVec 5) : Statement (.addImm dr sr1 imm5) := by
  apply eq_of_bits <;> simp only [encode, opcodeNumber, BitVec.getLsbD_extractLsb', BitVec.getLsbD_append] <;> rfl

theorem andReg (dr sr1 sr2 : Reg) : Statement (.andReg dr sr1 sr2) := by
  apply eq_of_bits <;> simp only [encode, opcodeNumber, BitVec.getLsbD_extractLsb', BitVec.getLsbD_append] <;> rfl

theorem andImm (dr sr1 : Reg) (imm5 : BitVec 5) : Statement (.andImm dr sr1 imm5) := by
  apply eq_of_bits <;> simp only [encode, opcodeNumber, BitVec.getLsbD_extractLsb', BitVec.getLsbD_append] <;> rfl

theorem not (dr sr : Reg) : Statement (.not dr sr) := by
  apply eq_of_bits <;> simp only [encode, opcodeNumber, BitVec.getLsbD_extractLsb', BitVec.getLsbD_append] <;> rfl

theorem br (n z p : Bool) (off9 : BitVec 9) : Statement (.br n z p off9) := by
  apply eq_of_bits <;> simp only [encode, opcodeNumber, BitVec.getLsbD_extractLsb', BitVec.getLsbD_append] <;> rfl

theorem jmp (base : Reg) : Statement (.jmp base) := by
  apply eq_of_bits <;> simp only [encode, opcodeNumber, BitVec.getLsbD_extractLsb', BitVec.getLsbD_append] <;> rfl

theorem jsr (off11 : BitVec 11) : Statement (.jsr off11) := by
  apply eq_of_bits <;> simp only [encode, opcodeNumber, BitVec.getLsbD_extractLsb', BitVec.getLsbD_append] <;> rfl

theorem jsrr (base : Reg) : Statement (.jsrr base) := by
  apply eq_of_bits <;> simp only [encode, opcodeNumber, BitVec.getLsbD_extractLsb', BitVec.getLsbD_append] <;> rfl

theorem ld (dr : Reg) (off9 : BitVec 9) : Statement (.ld dr off9) := by
  apply eq_of_bits <;> simp only [encode, opcodeNumber, BitVec.getLsbD_extractLsb', BitVec.getLsbD_append] <;> rfl

theorem ldi (dr : Reg) (off9 : BitVec 9) : Statement (.ldi dr off9) := by
  apply eq_of_bits <;> simp only [encode, opcodeNumber, BitVec.getLsbD_extractLsb', BitVec.getLsbD_append] <;> rfl

theorem ldr (dr base : Reg) (off6 : BitVec 6) : Statement (.ldr dr base off6) := by
  apply eq_of_bits <;> simp only [encode, opcodeNumber, BitVec.getLsbD_extractLsb', BitVec.getLsbD_append] <;> rfl

theorem lea (dr : Reg) (off9 : BitVec 9) : Statement (.lea dr off9) := by
  apply eq_of_bits <;> simp only [encode, opcodeNumber, BitVec.getLsbD_extractLsb', BitVec.getLsbD_append] <;> rfl

theorem st (sr : Reg) (off9 : BitVec 9) : Statement (.st sr off9) := by
  apply eq_of_bits <;> simp only [encode, opcodeNumber, BitVec.getLsbD_extractLsb', BitVec.getLsbD_append] <;> rfl

theorem sti (sr : Reg) (off9 : BitVec 9) : Statement (.sti sr off9) := by
  apply eq_of_bits <;> simp only [encode, opcodeNumber, BitVec.getLsbD_extractLsb', BitVec.getLsbD_append] <;> rfl

theorem str (sr base : Reg) (off6 : BitVec 6) : Statement (.str sr base off6) := by
  apply eq_of_bits <;> simp only [encode, opcodeNumber, BitVec.getLsbD_extractLsb', BitVec.getLsbD_append] <;> rfl

theorem trap (vect8 : Byte) : Statement (.trap vect8) := by
  apply eq_of_bits <;> simp only [encode, opcodeNumber, BitVec.getLsbD_extractLsb', BitVec.getLsbD_append] <;> rfl

theorem rti : Statement .rti := by
  apply eq_of_bits <;> simp only [encode, opcodeNumber, BitVec.getLsbD_extractLsb', BitVec.getLsbD_append] <;> rfl

theorem res : Statement .res := by
  apply eq_of_bits <;> simp only [encode, opcodeNumber, BitVec.getLsbD_extractLsb', BitVec.getLsbD_append] <;> rfl

end Sys2Proof.Laws.OpcodeField
end

