-- ==== Sys2Proof/Laws/Scan.lean ====
section
/-! SUPPORT. What a string scan of PUTS and PUTSP does (44_trap.md R204, R206, R209): it stops at its terminator with the bytes
of the cells before, or it reaches `KBSR_ADDR` and has no answer. -/

namespace Sys2Proof.Machine

/-- The `k`-th cell after `a` seen from the next address. -/
theorem scan_addr_succ (a : Word) (k : Nat) : a + BitVec.ofNat 16 (k + 1) = a + 1 + BitVec.ofNat 16 k := by
  rw [BitVec.ofNat_add]
  ac_rfl

/-- A scan passes `n` cells that neither end it nor lie at `KBSR_ADDR`, and goes on from there. -/
theorem scan_passes (ends : Word → Bool) (chars : Word → List Byte) (s : State) (n fuel : Nat) (a : Word)
    (h : ∀ k < n, a + BitVec.ofNat 16 k ≠ s.params.kbsrAddr ∧ ends (s.cell (a + BitVec.ofNat 16 k)) = false) :
    scan ends chars s (n + fuel) a =
      (scan ends chars s fuel (a + BitVec.ofNat 16 n)).map
        (((List.range n).flatMap fun k => chars (s.cell (a + BitVec.ofNat 16 k))) ++ ·) := by
  induction n generalizing a with
  | zero => simp
  | succ n ih =>
    have e0 : a + BitVec.ofNat 16 0 = a := by simp
    have h0 := h 0 (Nat.succ_pos n)
    rw [e0] at h0
    have ih := ih (a + 1) fun k hk => by rw [← scan_addr_succ]; exact h (k + 1) (Nat.succ_lt_succ hk)
    rw [Nat.succ_add, scan, scanRead, if_neg h0.1]
    simp only [h0.2, Bool.false_eq_true, if_false]
    rw [ih, scan_addr_succ, Option.map_map, List.range_succ_eq_map]
    congr 1
    funext bs
    simp only [Function.comp, List.flatMap_cons, List.flatMap_map, e0, List.append_assoc, ← scan_addr_succ]

/-- A scan that stops after `n` cells writes the bytes of those cells. -/
theorem scan_stops (ends : Word → Bool) (chars : Word → List Byte) (s : State) {n fuel : Nat} (a : Word) (hn : n < fuel)
    (h : ∀ k < n, a + BitVec.ofNat 16 k ≠ s.params.kbsrAddr ∧ ends (s.cell (a + BitVec.ofNat 16 k)) = false)
    (hk : a + BitVec.ofNat 16 n ≠ s.params.kbsrAddr) (he : ends (s.cell (a + BitVec.ofNat 16 n)) = true) :
    scan ends chars s fuel a = some ((List.range n).flatMap fun k => chars (s.cell (a + BitVec.ofNat 16 k))) := by
  obtain ⟨f, rfl⟩ : ∃ f, fuel = n + (f + 1) := ⟨fuel - n - 1, by omega⟩
  rw [scan_passes ends chars s n (f + 1) a h, scan, scanRead, if_neg hk]
  simp [he]

/-- A scan that reaches `KBSR_ADDR` after `n` cells has no answer. -/
theorem scan_reaches (ends : Word → Bool) (chars : Word → List Byte) (s : State) {n fuel : Nat} (a : Word) (hn : n < fuel)
    (h : ∀ k < n, a + BitVec.ofNat 16 k ≠ s.params.kbsrAddr ∧ ends (s.cell (a + BitVec.ofNat 16 k)) = false)
    (hk : a + BitVec.ofNat 16 n = s.params.kbsrAddr) : scan ends chars s fuel a = none := by
  obtain ⟨f, rfl⟩ : ∃ f, fuel = n + (f + 1) := ⟨fuel - n - 1, by omega⟩
  rw [scan_passes ends chars s n (f + 1) a h, scan, scanRead, if_pos hk]
  simp

/-- Writing a string changes the output alone, or it is refused. -/
theorem writeString_cases (ends : Word → Bool) (chars : Word → List Byte) (s : State) :
    (∃ bs, scan ends chars s 65536 (s.reg .r0) = some bs ∧ writeString ends chars s = .next (s.writeBytes bs).flush) ∨
    (scan ends chars s 65536 (s.reg .r0) = none ∧ writeString ends chars s = .refused .scanReachesKbsr) := by
  unfold writeString
  cases h : scan ends chars s 65536 (s.reg .r0) with
  | none => exact .inr ⟨rfl, rfl⟩
  | some bs => exact .inl ⟨bs, rfl, rfl⟩

end Sys2Proof.Machine
end

