-- ==== Sys2Proof/Laws/Step.lean ====
section
/-! SUPPORT. What the trap services and one step can do, said once. -/

namespace Sys2Proof.Machine

/-- R0 is written, and COND only under `TRAP_IN_FLAGS = update`. -/
theorem writeInputWord_eq (w : Word) (s : State) :
    writeInputWord w s =
      (s.setReg .r0 w).setCond (if s.params.trapInFlags = .update then condOf w else s.cond) := by
  unfold writeInputWord
  split <;> next h => rw [h]; rfl

/-- GETC takes an input word, or the core waits in it. -/
theorem serviceGetc_cases (s : State) :
    (∃ w rest, ReadReturns s w rest ∧
      serviceGetc s = .next (writeInputWord w ((s.setInput rest).setWaiting none))) ∨
    (ReadBlocks s ∧ serviceGetc s = .next (s.setWaiting (some .getc))) := by
  rcases read_cases s with ⟨w, rest, h⟩ | h
  · exact .inl ⟨w, rest, h, by rw [serviceGetc, consoleRead_returns h]⟩
  · exact .inr ⟨h, by rw [serviceGetc, consoleRead_blocks h]⟩

/-- IN past its prompt takes an input word and echoes it, or the core waits in it. -/
theorem inAfterPrompt_cases (s : State) :
    (∃ w rest, ReadReturns s w rest ∧ inAfterPrompt s =
      .next (writeInputWord w (((s.setInput rest).writeByte (lowByte w)).setWaiting none))) ∨
    (ReadBlocks s ∧ inAfterPrompt s = .next (s.setWaiting (some .inp))) := by
  rcases read_cases s with ⟨w, rest, h⟩ | h
  · exact .inl ⟨w, rest, h, by rw [inAfterPrompt, consoleRead_returns h]⟩
  · exact .inr ⟨h, by rw [inAfterPrompt, consoleRead_blocks h]⟩

theorem trapService_getc (v : Byte) : trapService v = .getc ↔ v = 0x20 := by
  revert v; decide

theorem trapService_out (v : Byte) : trapService v = .out ↔ v = 0x21 := by
  revert v; decide

theorem trapService_puts (v : Byte) : trapService v = .puts ↔ v = 0x22 := by
  revert v; decide

theorem trapService_inp (v : Byte) : trapService v = .inp ↔ v = 0x23 := by
  revert v; decide

theorem trapService_putsp (v : Byte) : trapService v = .putsp ↔ v = 0x24 := by
  revert v; decide

theorem trapService_halt (v : Byte) : trapService v = .halt ↔ v = 0x25 := by
  revert v; decide

/-- The unknown vectors are those outside 0x20 to 0x25 (44_trap.md R201). -/
theorem trapService_unknown (v : Byte) : trapService v = .unknown ↔ v.toNat < 0x20 ∨ 0x25 < v.toNat := by
  revert v; decide

/-- Everything a step with a next state can do: go on with a blocking read, honour a cancellation, or run the fetched
instruction. -/
theorem step_cases {s t : State} (h : step s = .next t) :
    s.run = .running ∧
    ((∃ w, s.waiting = some w ∧ resumeWait w s = .next t) ∨
     (s.waiting = none ∧ s.cancelReq = true ∧ t = s.setRun .cancelled) ∨
     (s.waiting = none ∧ s.cancelReq = false ∧ exec (decode (fetch s).ir) (fetch s) = .next t)) := by
  unfold step at h
  split at h
  · cases h
  · cases h
  · cases h
  · next hr =>
    refine ⟨hr, ?_⟩
    split at h
    · next w hw => exact .inl ⟨w, hw, h⟩
    · next hw =>
      split at h
      · next hc => exact .inr (.inl ⟨hw, hc, by cases h; rfl⟩)
      · next hc => exact .inr (.inr ⟨hw, by simpa using hc, h⟩)

end Sys2Proof.Machine
end

