-- ==== Sys2Proof/Tests/Slice0.lean ====
section
/-! SUPPORT. Tests whose expected results come from spec/95_test_vectors.md (each names its vector) and words written out from
the encoding tables; the ill-formed terms that each check of WellFormed refuses; and, for every statement with hypotheses, a
concrete state and operands that meet them. -/

open Sys2Proof Sys2Proof.Machine

namespace Sys2Proof.Tests

/-- The conventions of 95_test_vectors.md, with `TRAP_IN_FLAGS = update`, a prompt `>` and a notice `H`. -/
def demo : State :=
  { State.reset with params := ⟨0xFE00, 0xFE02, 0xFFFF, .update, .nop, [0x3E], [0x48]⟩ }

/-- A state about to fetch the word `w` at `pc`. -/
def place (pc w : Word) (s : State) : State := (s.setCell pc w).setPc pc

/-- The next state of a step, where there is one. -/
def after (s : State) : Option State :=
  match step s with
  | .next t => some t
  | _ => none

/-- Whether a step is refused. -/
def refusedBy (s : State) : Option Refusal :=
  match step s with
  | .refused r => some r
  | _ => none

/-- Whether a step stops with a fault. -/
def stoppedBy (s : State) : Option Fault :=
  match step s with
  | .fault f => some f
  | _ => none

/-! ### WellFormed: an ill-formed term for each check -/

theorem test_equal_device_addresses_refused : ¬ (Params.mk 0xFE00 0xFE00 0 .update .nop [] []).wf := by decide
theorem test_default_device_addresses_accepted : Config.params.wf := by decide
theorem test_add_with_bits_4_3_set_not_canonical : canonicalWord 0x129B = false := by decide
theorem test_not_with_low_bits_clear_not_canonical : canonicalWord 0x9940 = false := by decide
theorem test_jmp_with_high_bits_set_not_canonical : canonicalWord 0xCEFF = false := by decide
theorem test_jsrr_with_bit_9_set_not_canonical : canonicalWord 0x4300 = false := by decide
theorem test_halt_with_bit_8_set_not_canonical : canonicalWord 0xF125 = false := by decide
theorem test_rti_with_low_bits_set_not_canonical : canonicalWord 0x8FFF = false := by decide
theorem test_plain_add_canonical : canonicalWord 0x1283 = true := by decide
theorem test_unsorted_memory_refused : ¬ Memory.wf [(2, 1), (1, 1)] := by decide
theorem test_background_entry_refused : ¬ Memory.wf [(1, 0)] := by decide
theorem test_address_past_the_space_refused : ¬ Memory.wf [(65536, 1)] := by decide

/-! ### Decoding: words written bit by bit from 30_encoding.md R94 to R104 -/

-- R94: op 0001, DR 001, SR1 010, bit 5 0, bits 4:3 00, SR2 011
theorem test_decode_add_reg : decode 0b0001001010000011 = .addReg .r1 .r2 .r3 := by decide
-- R95: op 0001, DR 001, SR1 010, bit 5 1, imm5 11111
theorem test_decode_add_imm : decode 0b0001001010111111 = .addImm .r1 .r2 0b11111 := by decide
-- R94: op 0101, DR 011, SR1 001, SR2 010
theorem test_decode_and_reg : decode 0b0101011001000010 = .andReg .r3 .r1 .r2 := by decide
-- R95: op 0101, DR 001, SR1 111, imm5 10000
theorem test_decode_and_imm : decode 0b0101001111110000 = .andImm .r1 .r7 0b10000 := by decide
-- R96: op 1001, DR 100, SR 101
theorem test_decode_not : decode 0b1001100101111111 = .not .r4 .r5 := by decide
-- R97: op 0000, n 1, z 0, p 1, PCoffset9 100000001
theorem test_decode_br : decode 0b0000101100000001 = .br true false true 0b100000001 := by decide
-- R98: op 1100, BaseR 110
theorem test_decode_jmp : decode 0b1100000110000000 = .jmp .r6 := by decide
-- R99: op 0100, bit 11 1, PCoffset11 10000000001
theorem test_decode_jsr : decode 0b0100110000000001 = .jsr 0b10000000001 := by decide
-- R100: op 0100, bit 11 0, BaseR 100
theorem test_decode_jsrr : decode 0b0100000100000000 = .jsrr .r4 := by decide
-- R101: op 0010, DR 010, PCoffset9 000000101
theorem test_decode_ld : decode 0b0010010000000101 = .ld .r2 0b000000101 := by decide
-- R101: op 1010, DR 001, PCoffset9 000010011
theorem test_decode_ldi : decode 0b1010001000010011 = .ldi .r1 0b000010011 := by decide
-- R102: op 0110, DR 100, BaseR 010, offset6 111111
theorem test_decode_ldr : decode 0b0110100010111111 = .ldr .r4 .r2 0b111111 := by decide
-- R101: op 1110, DR 000, PCoffset9 111111111
theorem test_decode_lea : decode 0b1110000111111111 = .lea .r0 0b111111111 := by decide
-- R101: op 0011, SR 011, PCoffset9 111111110
theorem test_decode_st : decode 0b0011011111111110 = .st .r3 0b111111110 := by decide
-- R101: op 1011, SR 001, PCoffset9 000000001
theorem test_decode_sti : decode 0b1011001000000001 = .sti .r1 0b000000001 := by decide
-- R102: op 0111, SR 101, BaseR 110, offset6 011111
theorem test_decode_str : decode 0b0111101110011111 = .str .r5 .r6 0b011111 := by decide
-- R103: op 1111, bits 11:8 ignored, trapvect8 00100101
theorem test_decode_trap : decode 0b1111000100100101 = .trap 0x25 := by decide
-- R104: op 1000 and 1101, bits 11:0 ignored
theorem test_decode_rti : decode 0b1000111111111111 = .rti := by decide
theorem test_decode_res : decode 0b1101000100100011 = .res := by decide

theorem test_table_word_numbering : decodeTableWord 16 0x1283 = some (.addReg .r1 .r2 .r3) := by decide
theorem test_table_word_too_long : decodeTableWord 32 0x1283 = none := by decide

/-! ### Sign extension and flags -/

-- W1
theorem test_sext : (sext (0b11111 : BitVec 5), sext (0b00001 : BitVec 5), sext (0x100 : BitVec 9), sext (0x3FF : BitVec 11))
    = (0xFFFF, 0x0001, 0xFF00, 0x03FF) := by decide
-- W2
theorem test_cond : (condOf 0x0000, condOf 0x0001, condOf 0x7FFF, condOf 0x8000, condOf 0xFFFF) =
    (.zro, .pos, .pos, .neg, .neg) := by decide

/-! ### Operate -/

-- O3
theorem test_add_wraps : (after (place 0x3000 0x1283 ((demo.setReg .r2 0xFFFF).setReg .r3 0x0001))).map
    (fun t => (t.reg .r1, t.cond, t.pc)) = some (0x0000, .zro, 0x3001) := by decide
-- O4: DR = SR1 = SR2
theorem test_add_doubles : (after (place 0x3000 0x1241 (demo.setReg .r1 0x4000))).map
    (fun t => (t.reg .r1, t.cond)) = some (0x8000, .neg) := by decide
-- O9
theorem test_add_imm_negative : (after (place 0x3000 0x14BF (demo.setReg .r2 0x8000))).map
    (fun t => (t.reg .r2, t.cond)) = some (0x7FFF, .pos) := by decide
-- O12
theorem test_and_reg : (after (place 0x3000 0x5642 ((demo.setReg .r1 0x8001).setReg .r2 0xFFFF))).map
    (fun t => (t.reg .r3, t.cond)) = some (0x8001, .neg) := by decide
-- O14
theorem test_and_imm_sign_extends : (after (place 0x3000 0x5270 (demo.setReg .r1 0x1234))).map
    (fun t => (t.reg .r1, t.cond)) = some (0x1230, .pos) := by decide
-- O18, O19
theorem test_not_in_place : (after (place 0x3000 0x993F (demo.setReg .r4 0x8000))).map
    (fun t => (t.reg .r4, t.cond)) = some (0x7FFF, .pos) := by decide
theorem test_not_ignores_low_bits : (after (place 0x3000 0x9940 (demo.setReg .r5 0x00FF))).map
    (fun t => (t.reg .r4, t.cond)) = some (0xFF00, .neg) := by decide

/-! ### Control -/

-- B1 and B2
theorem test_br_taken : (after (place 0x3005 0x05FD (demo.setCond .zro))).map (·.pc) = some 0x3003 := by decide
theorem test_br_not_taken : (after (place 0x3005 0x05FD (demo.setCond .pos))).map (·.pc) = some 0x3006 := by decide
-- B11
theorem test_br_wraps : (after (place 0xFFFF 0x0FFE demo)).map (·.pc) = some 0xFFFE := by decide
-- B15
theorem test_jmp : (after (place 0x3000 0xCEFF ((demo.setReg .r3 0x4000).setReg .r7 0x1111))).map
    (fun t => (t.pc, t.reg .r7)) = some (0x4000, 0x1111) := by decide
-- B19
theorem test_jsr_wraps : (after (place 0x0000 0x4FFE demo)).map (fun t => (t.reg .r7, t.pc, t.cond)) =
    some (0x0001, 0xFFFF, .zro) := by decide
-- B20 and B21
theorem test_jsrr : (after (place 0x3000 0x4100 (demo.setReg .r4 0x5000))).map (fun t => (t.reg .r7, t.pc)) =
    some (0x3001, 0x5000) := by decide
theorem test_jsrr_r7_falls_through : (after (place 0x3000 0x41C0 (demo.setReg .r7 0x5000))).map
    (fun t => (t.reg .r7, t.pc)) = some (0x3001, 0x3001) := by decide

/-! ### Loads and stores -/

-- M1 and M3
theorem test_ld : (after (place 0x3000 0x2405 (demo.setCell 0x3006 0x8001))).map (fun t => (t.reg .r2, t.cond)) =
    some (0x8001, .neg) := by decide
theorem test_ld_own_word : (after (place 0xFFFF 0x21FF demo)).map (fun t => (t.reg .r0, t.pc)) =
    some (0x21FF, 0x0000) := by decide
-- M4
theorem test_ldi : (after (place 0x0050 0xA213 ((demo.setCell 0x0064 0x00C8).setCell 0x00C8 0x002A))).map
    (fun t => (t.reg .r1, t.cond, t.pc)) = some (0x002A, .pos, 0x0051) := by decide
-- K1
theorem test_ldi_polls : (after (place 0x3000 0xA201 ((demo.setCell 0x3002 0xFE00).setInput [.byte 0x41]))).map
    (fun t => (t.reg .r1, t.cell 0xFE00, t.cell 0xFE02, t.input)) = some (0x8000, 0x8000, 0x0041, []) := by decide
-- K2
theorem test_ldi_polls_nothing :
    (after (place 0x3000 0xA201 (((demo.setCell 0x3002 0xFE00).setCell 0xFE00 0x8000).setCell 0xFE02 0x0033))).map
    (fun t => (t.reg .r1, t.cond, t.cell 0xFE00, t.cell 0xFE02)) = some (0x0000, .zro, 0x0000, 0x0033) := by decide
-- M6 and K3
theorem test_ldr_in_place : (after (place 0x3000 0x6481 ((demo.setReg .r2 0x4000).setCell 0x4001 0x0007))).map
    (fun t => (t.reg .r2, t.cond)) = some (0x0007, .pos) := by decide
theorem test_ldr_kbdr_does_not_poll :
    (after (place 0x3000 0x6040 (((demo.setReg .r1 0xFE02).setCell 0xFE02 0x0033).setInput [.byte 0x41]))).map
    (fun t => (t.reg .r0, t.input)) = some (0x0033, [.byte 0x41]) := by decide
-- M7 and M9
theorem test_lea_zero : (after (place 0x0000 0xE1FF demo)).map (fun t => (t.reg .r0, t.cond)) =
    some (0x0000, .zro) := by decide
theorem test_lea_does_not_poll :
    (after (place 0xFDFF 0xE200 ((demo.setCell 0xFE00 0x1111).setInput [.byte 0x41]))).map
    (fun t => (t.reg .r1, t.cond, t.cell 0xFE00, t.input)) = some (0xFE00, .neg, 0x1111, [.byte 0x41]) := by decide
-- M10 and M11
theorem test_st : (after (place 0x3000 0x37FE (demo.setReg .r3 0xABCD))).map (fun t => (t.cell 0x2FFF, t.cond)) =
    some (0xABCD, .zro) := by decide
theorem test_st_kbsr_is_plain : (after (place 0xFE01 0x37FE ((demo.setReg .r3 0x1234).setInput [.byte 0x41]))).map
    (fun t => (t.cell 0xFE00, t.input)) = some (0x1234, [.byte 0x41]) := by decide
-- M12
theorem test_sti : (after (place 0x3000 0xB201 ((demo.setReg .r1 0x0042).setCell 0x3002 0x4000))).map
    (fun t => (t.cell 0x4000, t.cell 0x3002)) = some (0x0042, 0x4000) := by decide
-- M13 and M14
theorem test_str_wraps : (after (place 0x3000 0x7B9F ((demo.setReg .r5 0x0055).setReg .r6 0xFFF0))).map
    (fun t => t.cell 0x000F) = some 0x0055 := by decide
theorem test_str_base : (after (place 0x3000 0x7D80 (demo.setReg .r6 0x4000))).map (fun t => t.cell 0x4000) =
    some 0x4000 := by decide

/-! ### TRAP -/

-- T2
theorem test_out : (after (place 0x3000 0xF021 (demo.setReg .r0 0xFF0A))).map (·.outBytes) = some [0x0A] := by decide
-- T3
theorem test_getc_update : (after (place 0x3000 0xF020 ((demo.setCond .neg).setInput [.byte 0x61]))).map
    (fun t => (t.reg .r0, t.cond, t.outBytes)) = some (0x0061, .pos, []) := by decide
theorem test_getc_preserve :
    (after (place 0x3000 0xF020
      { demo with cond := .neg, input := [.byte 0x61], params := { demo.params with trapInFlags := .preserve } })).map
    (fun t => (t.reg .r0, t.cond)) = some (0x0061, .neg) := by decide
-- T5 and Y3: blocked, and a cancellation does not end it
theorem test_getc_blocks : (after (place 0x3000 0xF020 demo)).bind (fun t => after t.requestCancel) =
    some { place 0x3000 0xF020 demo with pc := 0x3001, ir := 0xF020, waiting := some .getc, cancelReq := true } := by decide
-- D20: the answer comes, GETC ends, and the cancellation is taken at the next boundary
theorem test_getc_resumes :
    ((after (place 0x3000 0xF020 demo)).bind (fun t => after (t.requestCancel.arriveInput [.byte 0x61]))).map
    (fun t => (t.reg .r0, t.run, (after t).map (·.run))) = some (0x0061, .running, some .cancelled) := by decide
-- T6
theorem test_in : (after (place 0x3000 0xF023 (demo.setInput [.byte 0x79]))).map
    (fun t => (t.outBytes, t.reg .r0, t.cond)) = some ([0x3E, 0x79], 0x0079, .pos) := by decide
-- T9 and T10
theorem test_puts_zero_low_byte :
    (after (place 0x3000 0xF022 (((demo.setReg .r0 0x4000).setCell 0x4000 0x0100).setCell 0x4001 0x0041))).map
    (·.outBytes) = some [0x00, 0x41] := by decide
theorem test_puts_wraps :
    (after (place 0x3000 0xF022 (((demo.setReg .r0 0xFFFF).setCell 0xFFFF 0x0041).setCell 0x0000 0x0042))).map
    (·.outBytes) = some [0x41, 0x42] := by decide
-- T11
theorem test_puts_refused_at_kbsr :
    refusedBy (place 0x3000 0xF022 ((demo.setReg .r0 0xFDFF).setCell 0xFDFF 0x0041)) = some .scanReachesKbsr := by decide
-- T12 and T13
theorem test_putsp :
    (after (place 0x3000 0xF024 (((demo.setReg .r0 0x4000).setCell 0x4000 0x6548).setCell 0x4001 0x006C))).map
    (·.outBytes) = some [0x48, 0x65, 0x6C] := by decide
theorem test_putsp_low_byte_ends : (after (place 0x3000 0xF024 ((demo.setReg .r0 0x4000).setCell 0x4000 0x4100))).map
    (·.outBytes) = some [] := by decide
-- T14 and T15
theorem test_halt : (after (place 0x3006 0xF125 demo)).map (fun t => (t.run, t.pc, t.outBytes)) =
    some (.halted, 0x3007, [0x48]) := by decide
-- T16
theorem test_unknown_trap_nop : (after (place 0x3000 0xF026 demo)).map (fun t => (t.run, t.pc)) =
    some (.running, 0x3001) := by decide
theorem test_unknown_trap_fault :
    (after (place 0x3000 0xF026 { demo with params := { demo.params with unknownTrap := .fault } })).map (·.run) =
    some (.faulted ⟨.unknownTrap 0x26, 0x3000, 0xF026⟩) := by decide

/-- The cause code and the value that a faulted state records. -/
def faultReport (s : State) : Option (Nat × Word) :=
  match s.run with
  | .faulted r => some (r.cause.code, r.cause.value)
  | _ => none

/-! ### Illegal opcodes, the cycle, reset and launch -/

-- 60_exceptions.md R244: code 1 with the opcode, code 2 with the vector
theorem test_cause_code_rti : (after (place 0x3000 0x8FFF demo)).bind faultReport = some (1, 0x0008) := by decide
theorem test_cause_code_res : (after (place 0xFFFF 0xD000 demo)).bind faultReport = some (1, 0x000D) := by decide

-- X2
theorem test_rti : (after (place 0x3000 0x8FFF demo)).map (fun t => (t.run, t.pc)) =
    some (.faulted ⟨.illegalOpcode 0x8, 0x3000, 0x8FFF⟩, 0x3001) := by decide
-- X4
theorem test_res : (after (place 0xFFFF 0xD000 demo)).map (fun t => (t.run, t.pc)) =
    some (.faulted ⟨.illegalOpcode 0xD, 0xFFFF, 0xD000⟩, 0x0000) := by decide
-- K4 and K5
theorem test_fetch_kbsr_ready : (after ((demo.setPc 0xFE00).setInput [.byte 0x41])).map
    (fun t => (t.run, t.pc, t.cell 0xFE02)) =
    some (.faulted ⟨.illegalOpcode 0x8, 0xFE00, 0x8000⟩, 0xFE01, 0x0041) := by decide
theorem test_fetch_kbsr_not_ready : (after ((demo.setCell 0xFE00 0xF025).setPc 0xFE00)).map
    (fun t => (t.run, t.pc, t.cell 0xFE00)) = some (.running, 0xFE01, 0x0000) := by decide
-- Y1 and Y2
theorem test_cancel : after (place 0x3000 0x1021 demo).requestCancel =
    some ((place 0x3000 0x1021 demo).requestCancel.setRun .cancelled) := by decide
theorem test_halted_has_no_step : stoppedBy (demo.setRun .halted) = some .stoppedHalted := by decide
-- P5: the ST at 0x3001 overwrites the next instruction
theorem test_store_is_fetched_next :
    ((after (place 0x3001 0x3000 (demo.setReg .r0 0xD000))).bind after).map (·.run) =
    some (.faulted ⟨.illegalOpcode 0xD, 0x3002, 0xD000⟩) := by decide
-- 70_reset_and_hazards.md R272 and 20_memory.md R71: origin 0x3000, then one word, high byte first
theorem test_image : ((imageWords [0x30, 0x00, 0xF0, 0x25]).bind (loadImage [])).map (·.read 0x3000) =
    some 0xF025 := by decide
theorem test_later_image_overwrites : (loadImages [] [[0x3000, 1, 2], [0x3001, 3]]).map
    (fun m => (m.read 0x3000, m.read 0x3001)) = some (1, 3) := by decide
theorem test_image_past_the_top : loadImage [] [0xFFFF, 1, 2] = none := by decide
theorem test_with_fetch_word : (after (State.reset.withFetchWord 16 0x1021)).map (fun t => (t.ir, t.pc)) =
    some (0x1021, 0x3001) := by decide
theorem test_observation_leaves_flushes_out :
    (demo.emit [.byte 0x41, .flush]).outBytes = [0x41] ∧ demo.observe = none := by decide

/-! ### Witnesses: states and operands that meet the hypotheses of each statement that has some -/

/-- A state in which `step` and the fetch run the word `w` at 0x3000. -/
def ready (w : Word) : State := place 0x3000 w demo

-- SextRepeatsTheTopBit: the bits where its two cases meet
theorem witness_sext_bits : (sext (0b10000 : BitVec 5)).getLsbD 4 = true ∧ (sext (0b10000 : BitVec 5)).getLsbD 5 = true ∧
    (sext (0b01111 : BitVec 5)).getLsbD 15 = false := by decide
-- SetCcClassifiesEveryValue: the values where its cases meet
theorem witness_cond_boundaries : (0x0000 : Word).toNat = 0 ∧ 0x8000 ≤ (0x8000 : Word).toNat ∧
    (0 < (0x7FFF : Word).toNat ∧ (0x7FFF : Word).toNat < 0x8000) := by decide
-- BrFollowsTheMask: taken for each state of COND, and not taken
theorem witness_br_taken : ∀ c : Cond, true = true ∧ c = .neg ∨ true = true ∧ c = .zro ∨ true = true ∧ c = .pos := by
  intro c; cases c <;> decide
theorem witness_br_not_taken : ¬ (false = true ∧ demo.cond = .neg ∨ false = true ∧ demo.cond = .zro ∨
    true = true ∧ demo.cond = .pos) := by decide
-- ReadEffect (every statement with a MemRead): its three clauses
theorem witness_read_plain : (0xFDFF : Word) ≠ demo.params.kbsrAddr ∧ (0xFE02 : Word) ≠ demo.params.kbsrAddr := by decide
theorem witness_poll_finds_byte : PollFinds (demo.setInput [.byte 0x41]) 0x0041 [] := .inl ⟨0x41, rfl, by decide⟩
theorem witness_poll_finds_eof : PollFinds (demo.setInput [.eof, .byte 0x41]) 0xFFFF [.byte 0x41] := .inr ⟨rfl, rfl⟩
theorem witness_poll_finds_nothing : PollFindsNothing demo ∧ PollFindsNothing (demo.setInput [.notReady, .byte 0x41]) :=
  ⟨.inl rfl, .inr ⟨_, rfl⟩⟩
-- NextFetchSeesTheStore: ST R0 to the next cell, STI and STR to the pc
theorem witness_next_fetch_st : exec (.st .r0 0) (demo.setReg .r0 0xD000) =
      .next ((demo.setReg .r0 0xD000).setCell 0x3000 0xD000) ∧
    storeAddr (.st .r0 0) (demo.setReg .r0 0xD000) = some 0x3000 ∧ (0x3000 : Word) ≠ demo.params.kbsrAddr := ⟨rfl, rfl, by decide⟩
theorem witness_next_fetch_sti : storeAddr (.sti .r0 1) (demo.setCell 0x3001 0x3000) = some 0x3000 := by decide
theorem witness_next_fetch_str : storeAddr (.str .r0 .r6 (-1)) (demo.setReg .r6 0x3001) = some 0x3000 := by decide
-- GetcTakesAnInputWord and InPromptsReadsAndEchoes: the three ways a read returns
theorem witness_read_returns_byte : ReadReturns (demo.setInput [.notReady, .byte 0x79, .eof]) 0x0079 [.eof] :=
  .inl ⟨1, 0x79, rfl, by decide⟩
theorem witness_read_returns_eof : ReadReturns (demo.setInput [.eof]) 0xFFFF [] := .inr (.inl ⟨0, rfl, rfl⟩)
theorem witness_read_returns_when_empty : ReadReturns { demo with whenEmpty := .eof } 0xFFFF [] :=
  .inr (.inr ⟨0, rfl, rfl, rfl, rfl⟩)
theorem witness_trap_in_flags : demo.params.trapInFlags = .update ∧
    ({ demo.params with trapInFlags := .preserve } : Params).trapInFlags = .preserve := ⟨rfl, rfl⟩
-- BlockingReadSuspends
theorem witness_read_blocks : ReadBlocks demo ∧ ReadBlocks (demo.setInput [.notReady]) := by
  constructor <;> exact ⟨by decide, rfl⟩
-- OnlyTheConsoleEndsAWait: suspended, with no answer and with one
theorem witness_wait_blocked : (demo.setWaiting (some .inp)).run = .running ∧
    (demo.setWaiting (some .inp)).waiting = some .inp ∧ ReadBlocks (demo.setWaiting (some .inp)) := ⟨rfl, rfl, by decide, rfl⟩
theorem witness_wait_answered : ((demo.setWaiting (some .getc)).setInput [.byte 0x61]).waiting = some .getc ∧
    ReadReturns ((demo.setWaiting (some .getc)).setInput [.byte 0x61]) 0x0061 [] := ⟨rfl, .inl ⟨0, 0x61, rfl, by decide⟩⟩
-- PutsWritesUpToTheZeroCell: a string of two cells that wraps, and an empty one
theorem witness_puts_stops :
    ScanStops (fun w => w = 0) (((demo.setReg .r0 0xFFFF).setCell 0xFFFF 0x0041).setCell 0x0000 0x0042) 2 := by
  refine ⟨fun k hk => ?_, by decide, by decide⟩
  interval_cases k <;> decide
theorem witness_puts_empty : ScanStops (fun w => w = 0) (demo.setReg .r0 0x4000) 0 :=
  ⟨fun k hk => absurd hk (Nat.not_lt_zero k), by decide, by decide⟩
-- PutspWritesPackedCharacters: a cell with a low byte of zero ends it
theorem witness_putsp_stops : ScanStops (fun w => w.extractLsb' 0 8 = 0)
    (((demo.setReg .r0 0x4000).setCell 0x4000 0x6548).setCell 0x4001 0x4100) 1 := by
  refine ⟨fun k hk => ?_, by decide, by decide⟩
  interval_cases k; decide
-- PutsScanEndsOrIsRefused and PutspScanEndsOrIsRefused: a scan that reaches KBSR_ADDR
theorem witness_scan_reaches :
    ScanReachesKbsr (fun w => w = 0) ((demo.setReg .r0 0xFDFF).setCell 0xFDFF 0x0041) 1 ∧
    ScanReachesKbsr (fun w => w.extractLsb' 0 8 = 0) (demo.setReg .r0 0xFE00) 0 := by
  refine ⟨⟨fun k hk => ?_, by decide⟩, ⟨fun k hk => absurd hk (Nat.not_lt_zero k), by decide⟩⟩
  interval_cases k; decide
-- UnknownVectorDoesAsConfigured: the vectors on both sides of the known ones, under both policies
theorem witness_unknown_vectors : (0x1F : Byte).toNat < 0x20 ∧ 0x25 < (0x26 : Byte).toNat ∧
    demo.params.unknownTrap = .nop ∧
    ({ demo.params with unknownTrap := .fault } : Params).unknownTrap = .fault := ⟨by decide, by decide, rfl, rfl⟩
-- TrapSavesNoLink: a TRAP that has a next state and is neither GETC nor IN
theorem witness_trap_next : exec (.trap 0x21) demo = .next (demo.writeByte 0x00).flush ∧ (0x21 : Byte) ≠ 0x20 ∧
    (0x21 : Byte) ≠ 0x23 := ⟨rfl, by decide, by decide⟩
-- FaultRecordNamesTheInstruction and ThreeWaysToEnd: cycles that fault, halt and are cancelled
theorem witness_step_faults : (after (ready 0xD123)).map (fun t => decide (t.run = .running)) = some false ∧
    (ready 0xD123).waiting = none := by decide
theorem witness_step_halts : (after (ready 0xF025)).map (·.run) = some .halted := by decide
theorem witness_step_cancelled : (after (ready 0xF025).requestCancel).map (·.run) = some .cancelled := by decide
-- FaultedStepHasItsCauseCode: a step that faults with each code (the steps of witness_step_faults have code 1)
theorem witness_cause_codes : (after (ready 0xD123)).bind faultReport = some (1, 0x000D) ∧
    (after { ready 0xF126 with params := { demo.params with unknownTrap := .fault } }).bind faultReport =
      some (2, 0x0026) := by decide
-- CancellationComesBeforeTheFetch and StepRunsTheDecodedInstruction: a cycle boundary with and without a request
theorem witness_boundary : (ready 0x1021).run = .running ∧ (ready 0x1021).waiting = none ∧
    (ready 0x1021).cancelReq = false ∧ (ready 0x1021).requestCancel.cancelReq = true ∧
    decode (memRead (ready 0x1021).pc (ready 0x1021)).1 = .addImm .r0 .r0 1 ∧
    (ready 0x1021).pc ≠ (ready 0x1021).params.kbsrAddr := by decide
-- FetchFromKbsrPolls: pc at KBSR_ADDR, with an input byte and without
theorem witness_fetch_from_kbsr : (demo.setPc 0xFE00).run = .running ∧ (demo.setPc 0xFE00).waiting = none ∧
    (demo.setPc 0xFE00).cancelReq = false ∧ (demo.setPc 0xFE00).pc = demo.params.kbsrAddr ∧ demo.params.wf ∧
    PollFindsNothing (demo.setPc 0xFE00) ∧ PollFinds ((demo.setPc 0xFE00).setInput [.byte 0x41]) 0x0041 [] :=
  ⟨rfl, rfl, rfl, rfl, by decide, .inl rfl, .inl ⟨0x41, rfl, by decide⟩⟩
-- TerminalStateHasNoStep: each terminal state
theorem witness_terminal : (demo.setRun .halted).run = .halted ∧ (demo.setRun .cancelled).run = .cancelled ∧
    (demo.setRun (.faulted ⟨.illegalOpcode 0x8, 0x3000, 0x8000⟩)).run =
      .faulted ⟨.illegalOpcode 0x8, 0x3000, 0x8000⟩ := ⟨rfl, rfl, rfl⟩
-- RunningStepHasANextState: a running state whose step is refused, and one whose step is not
theorem witness_running : (ready 0x0000).run = .running ∧ (after (ready 0x0000)).isSome = true ∧
    refusedBy (place 0x3000 0xF024 (demo.setReg .r0 0xFE00)) = some .scanReachesKbsr := by decide
-- OnlyTheDestinationIsWritten, CondWritersAreListed, PcWritersAreListed, CellsChangeByStoreOrPollOnly
theorem witness_store_frame : exec (.st .r0 1) demo = .next (demo.setCell 0x3001 0x0000) ∧
    destReg (.st .r0 1) ≠ some .r3 ∧ mayWriteCond demo.params (.st .r0 1) = false ∧ mayWritePc (.st .r0 1) = false ∧
    storeAddr (.st .r0 1) demo ≠ some 0x3002 ∧ demo.params.kbsrAddr ∉ readAddrs (.st .r0 1) demo :=
  ⟨rfl, by decide, rfl, rfl, by decide, by decide⟩
theorem witness_polling_frame : demo.params.kbsrAddr ∈ readAddrs (.ldr .r0 .r1 0) (demo.setReg .r1 0xFE00) ∧
    (0xFE01 : Word) ≠ demo.params.kbsrAddr ∧ (0xFE01 : Word) ≠ demo.params.kbdrAddr := by decide
theorem witness_jsr_frame : exec (.jsr 1) demo = .next ((demo.setReg .r7 0x3000).setPc 0x3001) ∧
    destReg (.jsr 1) ≠ some .r6 := ⟨rfl, by decide⟩
-- OutputOnlyGrows: a step that writes and one that does not
theorem witness_output : (after (ready 0xF021)).map (·.outBytes) = some [0x00] ∧
    (after (ready 0x0000)).map (·.outBytes) = some [] := by decide
-- OnlyBrReadsCond
theorem witness_not_br : ∀ n z p off9, Instr.ld .r0 1 ≠ .br n z p off9 := by intros; nofun
-- EveryStepKeepsTheInvariant and OutsideInputsKeepTheInvariant: a state that has a next state, and one that waits
theorem witness_invariant : (ready 0x1021).Inv ∧ (after (ready 0x1021)).isSome = true :=
  ⟨⟨by decide, by decide, fun _ h => (nomatch h), fun _ h => (nomatch h)⟩, by decide⟩
theorem witness_invariant_waiting : ({ demo with ir := 0xF020, waiting := some .getc } : State).Inv :=
  ⟨by decide, by decide, fun _ h => (nomatch h), fun w h => by cases h; exact ⟨rfl, by decide⟩⟩
-- LaunchIsRunning: a request made before launch
theorem witness_launch : (launch demo.regs .pos [] 0x3000 true [] .blocks demo.params).cancelReq = true := rfl
-- ImageWordsGoToConsecutiveCells: an image that ends at the last cell
theorem witness_image : loadImage [] [0xFFFE, 7, 8] = some [(0xFFFE, 7), (0xFFFF, 8)] ∧ Memory.wf [] := by decide
-- DecodeIsTheFormatTables and the statements with Decodes: a word that spells an instruction
theorem witness_format : HasFormat (.addReg .r1 .r2 .r3) 0x129B ∧ HasFormat .rti 0x8FFF := by
  unfold HasFormat; decide
-- OpcodeRowsPartitionTheWords
theorem witness_row : rowMatches (rowOf (.addReg .r0 .r0 .r0)) 0x1283 = true ∧
    rowMatches (rowOf (.addImm .r0 .r0 0)) 0x1283 = false := by decide
-- IgnoredBitsDoNotMatter: 0x1283 and 0x129B (vectors O1 and O5)
theorem witness_ignored : ((0x1283 : Word) ^^^ 0x129B) &&& ~~~(ignoredBits (decode 0x1283)) = 0 := by decide

end Sys2Proof.Tests
end

section
/-! Sign extension: what `sext` does to a field's bits and to its signed value, for every field width (00_scope.md R11). -/

namespace Sys2Proof.Machine

theorem getLsbD_sext {n i : Nat} (f : BitVec n) (hi : i < 16) :
    (sext f).getLsbD i = if i < n then f.getLsbD i else f.getLsbD (n - 1) := by
  rw [sext, BitVec.getLsbD_signExtend, BitVec.msb_eq_getLsbD_last, decide_eq_true hi, Bool.true_and]

theorem toInt_sext {n : Nat} (f : BitVec n) (hn : n ≤ 16) : (sext f).toInt = f.toInt :=
  BitVec.toInt_signExtend_of_le hn

/-- Settles O2: both clauses hold at every field width up to 16, so at the four widths it names. -/
theorem sextRepeatsTheTopBit : Obligations.SextRepeatsTheTopBit := by
  unfold Obligations.SextRepeatsTheTopBit
  constructor
  · intro n _ f i hi
    exact getLsbD_sext f hi
  · intro n hn f
    have hle : n ≤ 16 := by omega
    exact toInt_sext f hle

end Sys2Proof.Machine
end

section
/-! The condition code: which values `setCC` puts in each of its three states (10_state.md R36). -/

namespace Sys2Proof.Machine

/-- Bit 15 is set in the upper half of the values. -/
theorem getLsbD_fifteen_iff (v : Word) : v.getLsbD 15 = true ↔ 0x8000 ≤ v.toNat := by
  have hmsb : v.msb = v.getLsbD 15 := BitVec.msb_eq_getLsbD_last v
  rw [← hmsb, BitVec.msb_eq_decide, decide_eq_true_iff]

theorem condOf_eq_zro_iff (v : Word) : condOf v = .zro ↔ v.toNat = 0 := by
  have hzero : v = 0x0000 ↔ v.toNat = 0 := BitVec.toNat_inj.symm
  rw [← hzero]
  unfold condOf
  split_ifs <;> simp_all

theorem condOf_eq_neg_iff (v : Word) : condOf v = .neg ↔ 0x8000 ≤ v.toNat := by
  rw [← getLsbD_fifteen_iff]
  unfold condOf
  split_ifs <;> simp_all

/-- POS is what the other two states leave. -/
theorem condOf_eq_pos_iff (v : Word) : condOf v = .pos ↔ 0 < v.toNat ∧ v.toNat < 0x8000 := by
  have hzro := condOf_eq_zro_iff v
  have hneg := condOf_eq_neg_iff v
  cases hc : condOf v <;> simp only [hc, reduceCtorEq, true_iff, false_iff] at hzro hneg ⊢ <;> omega

/-- Settles O1: the three clauses are the ranges of `condOf`, which is all that `setCC` writes. -/
theorem setCcClassifiesEveryValue : Obligations.SetCcClassifiesEveryValue := by
  unfold Obligations.SetCcClassifiesEveryValue
  intro v s
  exact ⟨rfl, condOf_eq_zro_iff v, condOf_eq_neg_iff v, condOf_eq_pos_iff v⟩

end Sys2Proof.Machine
end

section
/-! COND is written and never read: each operation on two states that differ in COND alone does the same to both
(10_state.md R38). -/

namespace Sys2Proof.Machine

theorem AgreeButCond.refl (o : Host.Outcome State Fault Refusal) : AgreeButCond o o := by
  cases o <;> rfl

theorem AgreeButCond.next_setCond (t : State) (c : Cond) : AgreeButCond (.next t) (.next (t.setCond c)) := rfl

/-! ### The shared operations -/

theorem pollKeyboard_setCond (s : State) (c : Cond) : pollKeyboard (s.setCond c) = (pollKeyboard s).setCond c := by
  rcases poll_cases s with ⟨w, rest, h⟩ | h
  · have h' : PollFinds (s.setCond c) w rest := h
    rw [pollKeyboard_ready h, pollKeyboard_ready h']
    rfl
  · have h' : PollFindsNothing (s.setCond c) := h
    rw [pollKeyboard_notReady h, pollKeyboard_notReady h']
    rfl

theorem memRead_setCond (a : Word) (s : State) (c : Cond) :
    memRead a (s.setCond c) = ((memRead a s).1, (memRead a s).2.setCond c) := by
  by_cases h : a = s.params.kbsrAddr
  · subst h
    have h' := memRead_kbsr (s.setCond c)
    rw [State.setCond_params, pollKeyboard_setCond] at h'
    rw [h', memRead_kbsr]
    rfl
  · rw [memRead_plain h, memRead_plain (s := s.setCond c) h]
    rfl

/-- A load sets COND, so the earlier COND is lost. -/
theorem loadFrom_setCond (dr : Reg) (ea : Word) (s : State) (c : Cond) :
    loadFrom dr ea (s.setCond c) = loadFrom dr ea s := by
  rw [loadFrom_eq, memRead_setCond]
  rfl

theorem indirect_setCond (off9 : BitVec 9) (s : State) (c : Cond) :
    indirect off9 (s.setCond c) = ((indirect off9 s).1, (indirect off9 s).2.setCond c) :=
  memRead_setCond (pcRelative off9 s) s c

/-! ### The trap services -/

theorem writeInputWord_agree (w : Word) (s : State) (c : Cond) :
    AgreeButCond (.next (writeInputWord w s)) (.next (writeInputWord w (s.setCond c))) := by
  rw [writeInputWord_eq, writeInputWord_eq]
  rfl

theorem serviceGetc_agree (s : State) (c : Cond) : AgreeButCond (serviceGetc s) (serviceGetc (s.setCond c)) := by
  rcases read_cases s with ⟨w, rest, h⟩ | h
  · have h' : ReadReturns (s.setCond c) w rest := h
    rw [serviceGetc, consoleRead_returns h, serviceGetc, consoleRead_returns h']
    exact writeInputWord_agree w ((s.setInput rest).setWaiting none) c
  · have h' : ReadBlocks (s.setCond c) := h
    rw [serviceGetc, consoleRead_blocks h, serviceGetc, consoleRead_blocks h']
    exact .next_setCond _ c

theorem inAfterPrompt_agree (s : State) (c : Cond) :
    AgreeButCond (inAfterPrompt s) (inAfterPrompt (s.setCond c)) := by
  rcases read_cases s with ⟨w, rest, h⟩ | h
  · have h' : ReadReturns (s.setCond c) w rest := h
    rw [inAfterPrompt, consoleRead_returns h, inAfterPrompt, consoleRead_returns h']
    exact writeInputWord_agree w (((s.setInput rest).writeByte (lowByte w)).setWaiting none) c
  · have h' : ReadBlocks (s.setCond c) := h
    rw [inAfterPrompt, consoleRead_blocks h, inAfterPrompt, consoleRead_blocks h']
    exact .next_setCond _ c

theorem scan_setCond (ends : Word → Bool) (chars : Word → List Byte) (s : State) (c : Cond) (fuel : Nat) (a : Word) :
    scan ends chars (s.setCond c) fuel a = scan ends chars s fuel a := by
  induction fuel generalizing a with
  | zero => rfl
  | succ fuel ih =>
    have hread : scanRead a (s.setCond c) = scanRead a s := rfl
    rw [scan, scan, hread]
    simp only [ih]

theorem writeString_agree (ends : Word → Bool) (chars : Word → List Byte) (s : State) (c : Cond) :
    AgreeButCond (writeString ends chars s) (writeString ends chars (s.setCond c)) := by
  rw [writeString, writeString, scan_setCond, State.setCond_reg]
  cases scan ends chars s 65536 (s.reg .r0) with
  | some bs => exact .next_setCond _ c
  | none => exact .refl _

theorem serviceUnknown_agree (v : Byte) (s : State) (c : Cond) :
    AgreeButCond (serviceUnknown v s) (serviceUnknown v (s.setCond c)) := by
  rw [serviceUnknown, serviceUnknown, State.setCond_params]
  cases s.params.unknownTrap with
  | nop => exact .next_setCond s c
  | fault => exact .next_setCond _ c

theorem execTrap_agree (v : Byte) (s : State) (c : Cond) :
    AgreeButCond (execTrap v s) (execTrap v (s.setCond c)) := by
  unfold execTrap
  cases trapService v with
  | getc => exact serviceGetc_agree s c
  | out => exact .next_setCond _ c
  | puts => exact writeString_agree _ _ s c
  | inp => exact inAfterPrompt_agree (s.writeBytes s.params.inPrompt) c
  | putsp => exact writeString_agree _ _ s c
  | halt => exact .next_setCond _ c
  | unknown => exact serviceUnknown_agree v s c

/-! ### The instructions -/

/-- An operate instruction or a load sets COND from its result, so its outcome is the same; the others but BR hand COND on,
or set it from the input word. -/
theorem exec_agree {i : Instr} (hi : ∀ n z p off9, i ≠ .br n z p off9) (s : State) (c : Cond) :
    AgreeButCond (exec i s) (exec i (s.setCond c)) := by
  cases i with
  | br n z p off9 => exact absurd rfl (hi n z p off9)
  | addReg | addImm | andReg | andImm | not | lea => exact .refl _
  | jmp | jsr | jsrr | st | str | rti | res => exact .next_setCond _ c
  | ld dr off9 =>
    simp only [exec, execLd, loadFrom_setCond]
    exact .refl _
  | ldr dr base off6 =>
    simp only [exec, execLdr, loadFrom_setCond]
    exact .refl _
  | ldi dr off9 =>
    simp only [exec, execLdi, indirect_setCond, loadFrom_setCond]
    exact .refl _
  | sti sr off9 =>
    simp only [exec, execSti, indirect_setCond]
    exact .next_setCond _ c
  | trap v => exact execTrap_agree v s c

/-- Settles O49, by cases on the instruction: a state with another COND is `s.setCond c`. -/
theorem onlyBrReadsCond : Obligations.OnlyBrReadsCond := by
  unfold Obligations.OnlyBrReadsCond
  intro i s c hi
  exact exec_agree hi s c

end Sys2Proof.Machine
end

section
/-! What an instruction and a step may change, said once for every instruction (10_state.md R31, R32, R34, R37, R42, R56). -/

namespace Sys2Proof.Machine

/-- Bytes are added to the output, and what no step changes is unchanged (10_state.md R42, R56; 00_scope.md R8). -/
structure OnlyAddsOutput (s t : State) : Prop where
  bytes : ∃ bs, t.outBytes = s.outBytes ++ bs
  cancelReq : t.cancelReq = s.cancelReq
  params : t.params = s.params
  whenEmpty : t.whenEmpty = s.whenEmpty

theorem OnlyAddsOutput.of_output_eq {s t : State} (houtput : t.output = s.output) (hcancel : t.cancelReq = s.cancelReq)
    (hparams : t.params = s.params) (hempty : t.whenEmpty = s.whenEmpty) : OnlyAddsOutput s t :=
  ⟨⟨[], by rw [State.outBytes, houtput, List.append_nil]; rfl⟩, hcancel, hparams, hempty⟩

theorem OnlyAddsOutput.trans {s t u : State} (h : OnlyAddsOutput s t) (h' : OnlyAddsOutput t u) :
    OnlyAddsOutput s u := by
  obtain ⟨bs, hbs⟩ := h.bytes
  obtain ⟨bs', hbs'⟩ := h'.bytes
  exact ⟨⟨bs ++ bs', by rw [hbs', hbs, List.append_assoc]⟩, h'.cancelReq.trans h.cancelReq,
    h'.params.trans h.params, h'.whenEmpty.trans h.whenEmpty⟩

/-- As `OnlyAddsOutput`, with no register written but `dest`, COND only if `cond`, and PC only if `pc`. -/
structure ChangesWithin (dest : Option Reg) (cond pc : Bool) (s t : State) : Prop extends OnlyAddsOutput s t where
  regs : ∀ r, dest ≠ some r → t.reg r = s.reg r
  cond : cond = false → t.cond = s.cond
  pc : pc = false → t.pc = s.pc

section
variable {dest : Option Reg} {cond pc : Bool}

theorem ChangesWithin.trans {s t u : State} (h : ChangesWithin dest cond pc s t) (h' : ChangesWithin dest cond pc t u) :
    ChangesWithin dest cond pc s u where
  toOnlyAddsOutput := h.toOnlyAddsOutput.trans h'.toOnlyAddsOutput
  regs r hr := (h'.regs r hr).trans (h.regs r hr)
  cond hc := (h'.cond hc).trans (h.cond hc)
  pc hp := (h'.pc hp).trans (h.pc hp)

/-- A state with the same registers, COND and PC, whose output has grown, is within every bound. -/
theorem ChangesWithin.of_same {s t : State} (h : OnlyAddsOutput s t) (hregs : t.regs = s.regs) (hcond : t.cond = s.cond)
    (hpc : t.pc = s.pc) : ChangesWithin dest cond pc s t :=
  ⟨h, fun r _ => by rw [State.reg, hregs]; rfl, fun _ => hcond, fun _ => hpc⟩

theorem ChangesWithin.refl (s : State) : ChangesWithin dest cond pc s s :=
  .of_same (.of_output_eq rfl rfl rfl rfl) rfl rfl rfl

/-! ### One rule per operation -/

theorem ChangesWithin.setReg (r : Reg) (v : Word) (s : State) : ChangesWithin (some r) cond pc s (s.setReg r v) :=
  ⟨.of_output_eq rfl rfl rfl rfl,
    fun x hx => by rw [State.setReg_reg, if_neg fun e => hx (congrArg some e.symm)], fun _ => rfl, fun _ => rfl⟩

theorem ChangesWithin.setPc (v : Word) (s : State) : ChangesWithin dest cond true s (s.setPc v) :=
  ⟨.of_output_eq rfl rfl rfl rfl, fun _ _ => rfl, fun _ => rfl, fun h => nomatch h⟩

theorem ChangesWithin.setCond {c : Cond} {s : State} (h : cond = false → c = s.cond) :
    ChangesWithin dest cond pc s (s.setCond c) :=
  ⟨.of_output_eq rfl rfl rfl rfl, fun _ _ => rfl, h, fun _ => rfl⟩

theorem ChangesWithin.setRun (r : RunState) (s : State) : ChangesWithin dest cond pc s (s.setRun r) :=
  .of_same (.of_output_eq rfl rfl rfl rfl) rfl rfl rfl

theorem ChangesWithin.setWaiting (w : Option Waiting) (s : State) : ChangesWithin dest cond pc s (s.setWaiting w) :=
  .of_same (.of_output_eq rfl rfl rfl rfl) rfl rfl rfl

theorem ChangesWithin.setIr (w : Word) (s : State) : ChangesWithin dest cond pc s (s.setIr w) :=
  .of_same (.of_output_eq rfl rfl rfl rfl) rfl rfl rfl

theorem ChangesWithin.setInput (es : List InputEvent) (s : State) : ChangesWithin dest cond pc s (s.setInput es) :=
  .of_same (.of_output_eq rfl rfl rfl rfl) rfl rfl rfl

theorem ChangesWithin.emit (es : List OutEvent) (s : State) : ChangesWithin dest cond pc s (s.emit es) :=
  .of_same ⟨⟨bytesOf es, State.emit_outBytes s es⟩, rfl, rfl, rfl⟩ rfl rfl rfl

theorem ChangesWithin.memWrite (a v : Word) (s : State) : ChangesWithin dest cond pc s (memWrite a v s) :=
  .of_same (.of_output_eq rfl rfl rfl rfl) rfl rfl rfl

theorem ChangesWithin.memRead (a : Word) (s : State) : ChangesWithin dest cond pc s (memRead a s).2 :=
  .of_same (.of_output_eq (memRead_output a s) (memRead_cancelReq a s) (memRead_params a s) (memRead_whenEmpty a s))
    (memRead_regs a s) (memRead_cond a s) (memRead_pc a s)

theorem ChangesWithin.writeResult (dr : Reg) (v : Word) (s : State) :
    ChangesWithin (some dr) true pc s (writeResult dr v s) :=
  (ChangesWithin.setReg dr v s).trans (.setCond fun h => nomatch h)

theorem ChangesWithin.loadFrom (dr : Reg) (ea : Word) (s : State) :
    ChangesWithin (some dr) true pc s (loadFrom dr ea s) :=
  (ChangesWithin.memRead ea s).trans (.writeResult dr _ _)

theorem ChangesWithin.writeInputWord (w : Word) (s : State) :
    ChangesWithin (some .r0) (s.params.trapInFlags == .update) pc s (writeInputWord w s) := by
  rw [writeInputWord_eq]
  refine (ChangesWithin.setReg .r0 w s).trans (.setCond fun h => ?_)
  rw [if_neg (by simpa using h)]
  rfl

/-! ### The trap services -/

theorem serviceGetc_within {s t : State} (h : serviceGetc s = .next t) :
    ChangesWithin (some .r0) (s.params.trapInFlags == .update) pc s t := by
  rcases serviceGetc_cases s with ⟨w, rest, _, e⟩ | ⟨_, e⟩ <;> cases e.symm.trans h
  · exact ((ChangesWithin.setInput rest s).trans (.setWaiting none _)).trans
      (.writeInputWord w ((s.setInput rest).setWaiting none))
  · exact .setWaiting (some .getc) s

theorem inAfterPrompt_within {s t : State} (h : inAfterPrompt s = .next t) :
    ChangesWithin (some .r0) (s.params.trapInFlags == .update) pc s t := by
  rcases inAfterPrompt_cases s with ⟨w, rest, _, e⟩ | ⟨_, e⟩ <;> cases e.symm.trans h
  · exact (((ChangesWithin.setInput rest s).trans (.emit _ _)).trans (.setWaiting none _)).trans
      (.writeInputWord w (((s.setInput rest).writeByte (lowByte w)).setWaiting none))
  · exact .setWaiting (some .inp) s

theorem writeString_within {ends : Word → Bool} {chars : Word → List Byte} {s t : State}
    (h : writeString ends chars s = .next t) : ChangesWithin dest cond pc s t := by
  rcases writeString_cases ends chars s with ⟨bs, _, e⟩ | ⟨_, e⟩ <;> cases e.symm.trans h
  exact (ChangesWithin.emit _ s).trans (.emit _ _)

theorem serviceUnknown_within {v : Byte} {s t : State} (h : serviceUnknown v s = .next t) :
    ChangesWithin dest cond pc s t := by
  unfold serviceUnknown at h
  split at h <;> cases h
  · exact .refl s
  · exact .setRun _ s

end

theorem execTrap_within {v : Byte} {s t : State} (h : execTrap v s = .next t) :
    ChangesWithin (destReg (.trap v)) (mayWriteCond s.params (.trap v)) false s t := by
  unfold execTrap at h
  split at h
  next hv =>
    obtain rfl := (trapService_getc v).1 hv
    exact serviceGetc_within h
  next => cases h; exact (ChangesWithin.emit _ s).trans (.emit _ _)
  next => exact writeString_within h
  next hv =>
    obtain rfl := (trapService_inp v).1 hv
    exact (ChangesWithin.emit _ s).trans (inAfterPrompt_within h)
  next => exact writeString_within h
  next => cases h; exact ((ChangesWithin.emit _ s).trans (.emit _ _)).trans (.setRun .halted _)
  next => exact serviceUnknown_within h

/-! ### Every instruction, every step -/

/-- An instruction writes no register but its destination, and COND and PC only where it is listed to. -/
theorem exec_within {i : Instr} {s t : State} (h : exec i s = .next t) :
    ChangesWithin (destReg i) (mayWriteCond s.params i) (mayWritePc i) s t := by
  cases i with
  | addReg | addImm | andReg | andImm | not | lea => cases h; exact .writeResult _ _ s
  | br n z p off9 =>
    cases h
    split
    · exact .setPc _ s
    · exact .refl s
  | jmp => cases h; exact .setPc _ s
  | jsr | jsrr => cases h; exact (ChangesWithin.setReg .r7 s.pc s).trans (.setPc _ _)
  | ld | ldr => cases h; exact .loadFrom _ _ s
  | ldi dr off9 => cases h; exact (ChangesWithin.memRead _ s).trans (.loadFrom dr _ _)
  | st | str => cases h; exact .memWrite _ _ s
  | sti sr off9 => cases h; exact (ChangesWithin.memRead _ s).trans (.memWrite _ _ _)
  | trap v => exact execTrap_within h
  | rti | res => cases h; exact .setRun _ s

theorem fetch_within (s : State) : ChangesWithin none false true s (fetch s) :=
  ((ChangesWithin.memRead s.pc s).trans (.setIr _ _)).trans (.setPc _ _)

theorem step_onlyAddsOutput {s t : State} (h : step s = .next t) : OnlyAddsOutput s t := by
  obtain ⟨_, ⟨w, _, hw⟩ | ⟨_, _, rfl⟩ | ⟨_, _, he⟩⟩ := step_cases h
  · cases w with
    | getc => exact (serviceGetc_within (pc := false) hw).toOnlyAddsOutput
    | inp => exact (inAfterPrompt_within (pc := false) hw).toOnlyAddsOutput
  · exact (ChangesWithin.setRun (dest := none) (cond := false) (pc := false) .cancelled s).toOnlyAddsOutput
  · exact (fetch_within s).toOnlyAddsOutput.trans (exec_within he).toOnlyAddsOutput

/-- Settles O44: the register clause of `exec_within`. -/
theorem onlyTheDestinationIsWritten : Obligations.OnlyTheDestinationIsWritten := by
  unfold Obligations.OnlyTheDestinationIsWritten
  intro i s t r h hr
  exact (exec_within h).regs r hr

/-- Settles O45: the COND clause of `exec_within`. -/
theorem condWritersAreListed : Obligations.CondWritersAreListed := by
  unfold Obligations.CondWritersAreListed
  intro i s t h hc
  exact (exec_within h).cond hc

/-- Settles O46: the PC clause of `exec_within`. -/
theorem pcWritersAreListed : Obligations.PcWritersAreListed := by
  unfold Obligations.PcWritersAreListed
  intro i s t h hp
  exact (exec_within h).pc hp

/-- Settles O48: each kind of step only adds output, and a cycle is a fetch and an instruction that both do. -/
theorem outputOnlyGrows : Obligations.OutputOnlyGrows := by
  unfold Obligations.OutputOnlyGrows
  intro s t h
  obtain ⟨hbytes, hcancel, hparams, hempty⟩ := step_onlyAddsOutput h
  exact ⟨hbytes, hcancel, hparams, hempty⟩

end Sys2Proof.Machine
end

section
/-! The steps that fetch nothing: going on with a blocking read (40_fetch_execute.md R129, 10_state.md R53) and honouring a
cancellation (40_fetch_execute.md R121). -/

namespace Sys2Proof.Machine

theorem step_waiting {s : State} {v : Waiting} (hr : s.run = .running) (hw : s.waiting = some v) :
    step s = resumeWait v s := by
  simp [step, hr, hw]

theorem step_cancel {s : State} (hr : s.run = .running) (hw : s.waiting = none) (hc : s.cancelReq = true) :
    step s = .next (s.setRun .cancelled) := by
  simp [step, hr, hw, hc, honourCancel_eq]

theorem ended_setRun (r : RunState) (s : State) : Ended r s (s.setRun r) where
  run := rfl
  regs _ := rfl
  cond := rfl
  pc := rfl
  memory _ := rfl
  console := ⟨rfl, rfl⟩
  rest := ⟨rfl, rfl, rfl, rfl, rfl⟩

/-- The end of GETC and IN: the read leaves `rest`, `es` is sent to the console, the wait is over and the word is in R0. -/
theorem inputTaken_writeInputWord (w : Word) (rest : List InputEvent) (es : List OutEvent) (s : State) :
    InputTaken w rest (bytesOf es) s (writeInputWord w (((s.setInput rest).emit es).setWaiting none)) := by
  rw [writeInputWord_eq]
  constructor
  case regs => intro r hr; simp [hr]
  case memory => intro a; simp
  case condUpdate => intro h; simp [h]
  case condPreserve => intro h; simp [h]
  all_goals simp

theorem resumeWait_blocked {s : State} {v : Waiting} (hw : s.waiting = some v) (hb : ReadBlocks s) :
    resumeWait v s = .next s := by
  cases v with
  | getc => rw [resumeWait, serviceGetc, consoleRead_blocks hb]; exact congrArg _ (s.setWaiting_self hw)
  | inp => rw [resumeWait, inAfterPrompt, consoleRead_blocks hb]; exact congrArg _ (s.setWaiting_self hw)

/-- What a service that waits writes to the console once it has read `w`: IN echoes the low byte (44_trap.md R205). -/
def Waiting.echo (w : Word) : Waiting → List OutEvent
  | .getc => []
  | .inp => [.byte (lowByte w)]

theorem State.emit_nil (s : State) : s.emit [] = s := by
  simp [State.emit]

theorem resumeWait_answered {s : State} {v : Waiting} {w : Word} {rest : List InputEvent} (h : ReadReturns s w rest) :
    resumeWait v s = .next (writeInputWord w (((s.setInput rest).emit (v.echo w)).setWaiting none)) := by
  cases v with
  | getc => rw [resumeWait, serviceGetc, consoleRead_returns h, Waiting.echo, State.emit_nil]
  | inp => rw [resumeWait, inAfterPrompt, consoleRead_returns h]; rfl

/-- Settles O26: the step of a waiting core is `resumeWait`, which the read alone decides. -/
theorem onlyTheConsoleEndsAWait : Obligations.OnlyTheConsoleEndsAWait := by
  unfold Obligations.OnlyTheConsoleEndsAWait
  intro s v hr hw
  rw [step_waiting hr hw]
  refine ⟨resumeWait_blocked hw, fun w rest h => ⟨_, resumeWait_answered h, ?_⟩⟩
  cases v with
  | getc => exact inputTaken_writeInputWord w rest [] s
  | inp => exact inputTaken_writeInputWord w rest [.byte (lowByte w)] s

/-- Settles O53: a launch state is at a cycle boundary, where a request is honoured. -/
theorem launchIsRunning : Obligations.LaunchIsRunning := by
  unfold Obligations.LaunchIsRunning
  refine ⟨fun g c m pc req es e p => ⟨rfl, rfl, fun hreq => ?_⟩, rfl, rfl, ⟨_, _, _, _, _, _, _, rfl⟩⟩
  exact ⟨_, step_cancel rfl rfl hreq, ended_setRun .cancelled _⟩

end Sys2Proof.Machine
end

section
/-! Memory: which cells each operation writes (20_memory.md R64, R68, R70), and that the next fetch sees a store (R78). -/

namespace Sys2Proof.Machine

/-! ### MemWrite and MemRead -/

theorem memWrite_stored (a v : Word) (s : State) : Stored a v s (memWrite a v s) where
  stored := by rw [memWrite_eq, State.setCell_cell, if_pos rfl]
  memory b hb := by rw [memWrite_eq, State.setCell_cell, if_neg hb]
  regs _ := rfl
  cond := rfl
  pc := rfl
  console := ⟨rfl, rfl⟩
  control := ⟨⟨rfl, rfl, rfl, rfl, rfl⟩, rfl⟩

/-- Settles O14: MemWrite is `setCell`, which writes one cell at whatever address. -/
theorem memWriteStoresOneCell : Obligations.MemWriteStoresOneCell := by
  unfold Obligations.MemWriteStoresOneCell
  exact memWrite_stored

/-- A MemRead writes the device cells alone, and those only at `KBSR_ADDR`. -/
theorem memRead_cell_of_ne {a b : Word} {s : State}
    (h : a = s.params.kbsrAddr → b ≠ s.params.kbsrAddr ∧ b ≠ s.params.kbdrAddr) :
    (memRead a s).2.cell b = s.cell b := by
  rcases memRead_state_cases a s with e | ⟨ha, hpoll⟩
  · rw [e]
  · obtain ⟨hkbsr, hkbdr⟩ := h ha
    rcases hpoll with ⟨w, rest, _, e⟩ | ⟨_, e⟩
    · simp [e, hkbsr, hkbdr]
    · simp [e, hkbsr]

@[simp] theorem loadFrom_cell (dr : Reg) (ea : Word) (s : State) (b : Word) :
    (loadFrom dr ea s).cell b = (memRead ea s).2.cell b := rfl

/-! ### The trap services write no memory -/

@[simp] theorem writeInputWord_mem (w : Word) (s : State) : (writeInputWord w s).mem = s.mem := by
  rw [writeInputWord_eq]; rfl

theorem serviceGetc_mem {s t : State} (h : serviceGetc s = .next t) : t.mem = s.mem := by
  rcases serviceGetc_cases s with ⟨w, rest, _, e⟩ | ⟨_, e⟩ <;> cases e.symm.trans h
  · exact writeInputWord_mem w _
  · rfl

theorem inAfterPrompt_mem {s t : State} (h : inAfterPrompt s = .next t) : t.mem = s.mem := by
  rcases inAfterPrompt_cases s with ⟨w, rest, _, e⟩ | ⟨_, e⟩ <;> cases e.symm.trans h
  · exact writeInputWord_mem w _
  · rfl

theorem writeString_mem {ends : Word → Bool} {chars : Word → List Byte} {s t : State}
    (h : writeString ends chars s = .next t) : t.mem = s.mem := by
  rcases writeString_cases ends chars s with ⟨bs, _, e⟩ | ⟨_, e⟩ <;> cases e.symm.trans h
  rfl

theorem serviceUnknown_mem {v : Byte} {s t : State} (h : serviceUnknown v s = .next t) : t.mem = s.mem := by
  unfold serviceUnknown at h
  split at h <;> cases h <;> rfl

theorem execTrap_mem {v : Byte} {s t : State} (h : execTrap v s = .next t) : t.mem = s.mem := by
  unfold execTrap at h
  cases hv : trapService v <;> rw [hv] at h
  case getc => exact serviceGetc_mem h
  case inp => exact inAfterPrompt_mem (s := s.writeBytes s.params.inPrompt) h
  case puts | putsp => exact writeString_mem h
  case out | halt => cases h; rfl
  case unknown => exact serviceUnknown_mem h

/-! ### Every instruction -/

/-- An instruction writes the cell its store names and the device cells its reads may poll. -/
theorem exec_cell_of_ne {i : Instr} {s t : State} {a : Word} (h : exec i s = .next t)
    (hstore : storeAddr i s ≠ some a)
    (hread : s.params.kbsrAddr ∈ readAddrs i s → a ≠ s.params.kbsrAddr ∧ a ≠ s.params.kbdrAddr) :
    t.cell a = s.cell a := by
  have hpoll {b : Word} (hb : b ∈ readAddrs i s) (e : b = s.params.kbsrAddr) :
      a ≠ s.params.kbsrAddr ∧ a ≠ s.params.kbdrAddr := hread (e ▸ hb)
  cases i with
  | addReg | addImm | andReg | andImm | not | lea | jmp | jsr | jsrr | rti | res => cases h; rfl
  | br n z p off9 => cases h; split <;> rfl
  | ld | ldr => cases h; exact memRead_cell_of_ne (hpoll (.head _))
  | ldi dr off9 =>
    cases h
    have hpointer : (indirect off9 s).2.cell a = s.cell a := memRead_cell_of_ne (hpoll (.head _))
    have hparams : (indirect off9 s).2.params = s.params := memRead_params ..
    rw [loadFrom_cell, ← hpointer]
    exact memRead_cell_of_ne (hparams ▸ hpoll (.tail _ (.head _)))
  | st | str =>
    cases h
    exact (memWrite_stored _ _ s).memory a fun e => hstore (congrArg some e.symm)
  | sti sr off9 =>
    cases h
    have hpointer : (indirect off9 s).2.cell a = s.cell a := memRead_cell_of_ne (hpoll (.head _))
    rw [← hpointer]
    exact (memWrite_stored _ _ _).memory a fun e => hstore (congrArg some e.symm)
  | trap v => rw [State.cell, execTrap_mem h]; rfl

/-- Settles O47, by cases on the instruction: the rules of MemRead, MemWrite and the trap services. -/
theorem cellsChangeByStoreOrPollOnly : Obligations.CellsChangeByStoreOrPollOnly := by
  unfold Obligations.CellsChangeByStoreOrPollOnly
  intro i s t a h hstore hread
  exact exec_cell_of_ne h hstore hread

/-! ### A store and the fetch after it -/

theorem fetch_ir_plain {s : State} (h : s.pc ≠ s.params.kbsrAddr) : (fetch s).ir = s.cell s.pc := by
  rw [fetch_ir, memRead_plain h]

/-- After ST, STI or STR the cell it stores to holds its source register; STI's pointer read changes no register. -/
theorem exec_store_cell {i : Instr} {s t : State} {a : Word} {sr : Reg} (h : exec i s = .next t)
    (ha : storeAddr i s = some a)
    (hi : (∃ off9, i = .st sr off9 ∨ i = .sti sr off9) ∨ ∃ base off6, i = .str sr base off6) :
    t.cell a = s.reg sr := by
  obtain ⟨off9, rfl | rfl⟩ | ⟨base, off6, rfl⟩ := hi <;> cases h <;> cases ha
  · exact (memWrite_stored _ _ s).stored
  · exact (memWrite_stored _ _ _).stored.trans (memRead_reg ..)
  · exact (memWrite_stored _ _ s).stored

/-- Settles O22: away from `KBSR_ADDR` the fetch reads the cell, which holds what was stored. -/
theorem nextFetchSeesTheStore : Obligations.NextFetchSeesTheStore := by
  unfold Obligations.NextFetchSeesTheStore
  intro s t i a h ha hpc hne sr hi
  have hplain : t.pc ≠ t.params.kbsrAddr := by rwa [hpc, (exec_within h).params]
  calc (fetch t).ir = t.cell t.pc := fetch_ir_plain hplain
    _ = t.cell a := by rw [hpc]
    _ = s.reg sr := exec_store_cell h ha hi

end Sys2Proof.Machine
end

section
/-! The opcode table (spec/opcode_table.json): a row's mask covers the opcode and, where two rows share it, the mode bit that
tells them apart (30_encoding.md R91, R107). -/

namespace Sys2Proof

open Laws.OpcodeField (opcodeNumber)

theorem rowMatches_iff (row : OpcodeRow) (w : Word) : rowMatches row w = true ↔ w &&& row.mask = row.pattern :=
  beq_iff_eq

/-! ### A word is of the row of the instruction it decodes to -/

/-- A mask that covers the opcode keeps it and masks the low twelve bits. -/
theorem and_opcodeMask (w : Word) (m : BitVec 12) :
    w &&& (BitVec.allOnes 4 ++ m) = w.extractLsb' 12 4 ++ (w.extractLsb' 0 12 &&& m) := by
  have hsplit : w.extractLsb' 12 4 ++ w.extractLsb' 0 12 = w :=
    BitVec.extractLsb'_append_extractLsb' (w := 4) (len := 12)
  conv_lhs => rw [← hsplit, BitVec.and_append, BitVec.and_allOnes]

theorem rowMatches_of_opcodeOf {w : Word} {op : Opcode} (hop : opcodeOf w = op) :
    rowMatches ⟨BitVec.allOnes 4 ++ 0#12, op.bits ++ 0#12⟩ w = true := by
  rw [rowMatches_iff, and_opcodeMask, BitVec.and_zero, ← hop, opcodeOf_bits]

/-- A row whose mask also covers bit `k`, the mode bit. -/
theorem rowMatches_of_opcodeOf_of_bit {w : Word} {op : Opcode} {b : Bool} (k : Nat) (hk : k < 12)
    (hop : opcodeOf w = op) (hmode : bit w k = b) :
    rowMatches ⟨BitVec.allOnes 4 ++ BitVec.twoPow 12 k, op.bits ++ if b then BitVec.twoPow 12 k else 0#12⟩ w = true := by
  have hbit : (w.extractLsb' 0 12).getLsbD k = b := by simpa [hk, bit] using hmode
  rw [rowMatches_iff, and_opcodeMask, BitVec.and_twoPow, hbit, ← hop, opcodeOf_bits]

theorem rowMatches_rowOf_decode (w : Word) : rowMatches (rowOf (decode w)) w = true := by
  cases hop : opcodeOf w with
  | add | and =>
    cases hmode : bit w 5 <;> simp only [decode, hop, hmode]
    all_goals exact rowMatches_of_opcodeOf_of_bit 5 (by decide) hop hmode
  | jsr =>
    cases hmode : bit w 11 <;> simp only [decode, hop, hmode]
    all_goals exact rowMatches_of_opcodeOf_of_bit 11 (by decide) hop hmode
  | br | ld | st | ldr | str | rti | not | ldi | sti | jmp | res | lea | trap =>
    simp only [decode, hop]
    exact rowMatches_of_opcodeOf hop

/-! ### A word is of no other row -/

theorem rowOf_mask_opcode (i : Instr) : (rowOf i).mask.extractLsb' 12 4 = BitVec.allOnes 4 := by
  cases i <;> simp [rowOf]

theorem rowOf_pattern_opcode (i : Instr) : (rowOf i).pattern.extractLsb' 12 4 = opcodeNumber i := by
  cases i <;> simp [rowOf, opcodeNumber]

/-- A word of an instruction's row has the instruction's opcode. -/
theorem opcode_eq_of_rowMatches {i : Instr} {w : Word} (h : rowMatches (rowOf i) w = true) :
    w.extractLsb' 12 4 = opcodeNumber i := by
  have hmatch : w &&& (rowOf i).mask = (rowOf i).pattern := (rowMatches_iff _ w).1 h
  rw [← rowOf_pattern_opcode, ← hmatch, BitVec.extractLsb'_and, rowOf_mask_opcode, BitVec.and_allOnes]

/-- The mask of every row with an opcode number: ADD and AND have their mode in bit 5, JSR and JSRR in bit 11. -/
def opcodeRowMask (n : BitVec 4) : Word :=
  match n with
  | 0x1 | 0x5 => 0xF020
  | 0x4       => 0xF800
  | _         => 0xF000

theorem rowOf_mask (i : Instr) : (rowOf i).mask = opcodeRowMask (opcodeNumber i) := by
  cases i <;> rfl

/-- A word fixes the row it is of: its opcode fixes the mask, and the word under the mask is the pattern. -/
theorem rowOf_eq_of_rowMatches {i : Instr} {w : Word} (h : rowMatches (rowOf i) w = true) :
    rowOf i = ⟨opcodeRowMask (w.extractLsb' 12 4), w &&& opcodeRowMask (w.extractLsb' 12 4)⟩ := by
  have hmatch : w &&& (rowOf i).mask = (rowOf i).pattern := (rowMatches_iff _ w).1 h
  rw [opcode_eq_of_rowMatches h, ← rowOf_mask, hmatch]

/-- Settles O58: a word matches its own instruction's row, and all rows it matches are the one that its bits fix. -/
theorem opcodeRowsPartitionTheWords : Obligations.OpcodeRowsPartitionTheWords := by
  unfold Obligations.OpcodeRowsPartitionTheWords
  intro w
  have hown := rowMatches_rowOf_decode w
  refine ⟨hown, fun i hi => ?_⟩
  exact (rowOf_eq_of_rowMatches hi).trans (rowOf_eq_of_rowMatches hown).symm

end Sys2Proof
end

section
/-! The cycle (40_fetch_execute.md R121 to R130): the step from each run state, the fetch from `KBSR_ADDR`, and the ways a run
ends. -/

namespace Sys2Proof.Machine

/-! ### The step at a cycle boundary -/

theorem step_cycle {s : State} (hr : s.run = .running) (hw : s.waiting = none) (hc : s.cancelReq = false) :
    step s = exec (decode (fetch s).ir) (fetch s) := by
  simp [step, hr, hw, hc]

/-- Settles O38: the step of a cancelled core only sets the run state. -/
theorem cancellationComesBeforeTheFetch : Obligations.CancellationComesBeforeTheFetch := by
  unfold Obligations.CancellationComesBeforeTheFetch
  intro s hr hw hc
  exact ⟨_, step_cancel hr hw hc, ended_setRun .cancelled s⟩

/-- Settles O39: the cycle is `exec` on the fetched state, and a fetch away from `KBSR_ADDR` reads the cell alone. -/
theorem stepRunsTheDecodedInstruction : Obligations.StepRunsTheDecodedInstruction := by
  unfold Obligations.StepRunsTheDecodedInstruction
  rintro s _ hr hw hc rfl
  refine ⟨step_cycle hr hw hc, fun hpc => ?_⟩
  rw [step_cycle hr hw hc, fetch_plain hpc]
  rfl

/-! ### The fetch from `KBSR_ADDR` -/

/-- With distinct device addresses, a ready poll leaves 0x8000 in KBSR: the input word goes to another cell. -/
theorem pollKeyboard_ready_kbsr {s : State} {w : Word} {rest : List InputEvent} (h : PollFinds s w rest)
    (hd : s.params.wf) : (pollKeyboard s).cell s.params.kbsrAddr = 0x8000 := by
  rw [pollKeyboard_ready h, State.setCell_cell, if_neg hd, State.setInput_cell, State.setCell_cell, if_pos rfl]

theorem pollKeyboard_notReady_kbsr {s : State} (h : PollFindsNothing s) :
    (pollKeyboard s).cell s.params.kbsrAddr = 0x0000 := by
  rw [pollKeyboard_notReady h, State.setCell_cell, if_pos rfl]

theorem fetch_kbsr {s : State} (h : s.pc = s.params.kbsrAddr) :
    fetch s = ((pollKeyboard s).setIr ((pollKeyboard s).cell s.params.kbsrAddr)).setPc (s.pc + 1) := by
  rw [fetch_eq, h, memRead_kbsr]

/-- KBSR's value after a ready poll spells RTI. -/
theorem decode_kbsrReady : decode 0x8000 = .rti := by decide

/-- KBSR's value after a poll that is not ready spells a branch with an empty mask. -/
theorem decode_kbsrNotReady : decode 0x0000 = .br false false false 0 := by decide

/-- A branch with an empty mask is never taken. -/
theorem exec_br_emptyMask (off9 : BitVec 9) (s : State) : exec (.br false false false off9) s = .next s := rfl

section
variable {s : State} (hr : s.run = .running) (hw : s.waiting = none) (hc : s.cancelReq = false)
  (hpc : s.pc = s.params.kbsrAddr)
include hr hw hc hpc

/-- A cycle at `KBSR_ADDR` whose poll is ready polls and faults on RTI. -/
theorem step_kbsr_ready {w : Word} {rest : List InputEvent} (hd : s.params.wf) (h : PollFinds s w rest) :
    step s = .next (raiseFault (.illegalOpcode 0x8) (((pollKeyboard s).setIr 0x8000).setPc (s.pc + 1))) := by
  rw [step_cycle hr hw hc, fetch_kbsr hpc, pollKeyboard_ready_kbsr h hd, State.setPc_ir, State.setIr_ir, decode_kbsrReady]
  rfl

/-- A cycle at `KBSR_ADDR` whose poll is not ready polls and goes on. -/
theorem step_kbsr_notReady (h : PollFindsNothing s) :
    step s = .next (((pollKeyboard s).setIr 0x0000).setPc (s.pc + 1)) := by
  rw [step_cycle hr hw hc, fetch_kbsr hpc, pollKeyboard_notReady_kbsr h, State.setPc_ir, State.setIr_ir,
    decode_kbsrNotReady, exec_br_emptyMask]

end

/-- Settles O40: what the poll leaves in KBSR is the word that runs, RTI when ready and an empty-mask branch when not. -/
theorem fetchFromKbsrPolls : Obligations.FetchFromKbsrPolls := by
  unfold Obligations.FetchFromKbsrPolls
  intro s hr hw hc hpc hd
  constructor
  · intro w rest h
    refine ⟨_, _, step_kbsr_ready hr hw hc hpc hd h, rfl, rfl, rfl, rfl, pollKeyboard_ready_kbsr h hd, ?_⟩
    rw [pollKeyboard_ready h, raiseFault_eq]
    simp [SameRegs]
  · intro h
    refine ⟨_, step_kbsr_notReady hr hw hc hpc h, ?_, rfl, pollKeyboard_notReady_kbsr h, ?_⟩
    · simpa [pollKeyboard_notReady h] using hr
    · rw [pollKeyboard_notReady h]
      refine ⟨fun b hb => by simp [hb], ?_⟩
      simp [SameRegs]

/-! ### A step has no next state only in a terminal run state or by a refused scan -/

theorem resumeWait_next (w : Waiting) (s : State) : ∃ t, resumeWait w s = .next t := by
  cases w with
  | getc => rcases serviceGetc_cases s with ⟨_, _, _, e⟩ | ⟨_, e⟩ <;> exact ⟨_, e⟩
  | inp => rcases inAfterPrompt_cases s with ⟨_, _, _, e⟩ | ⟨_, e⟩ <;> exact ⟨_, e⟩

theorem writeString_next_or_refused (ends : Word → Bool) (chars : Word → List Byte) (s : State) :
    (∃ t, writeString ends chars s = .next t) ∨ writeString ends chars s = .refused .scanReachesKbsr := by
  rcases writeString_cases ends chars s with ⟨_, _, e⟩ | ⟨_, e⟩
  · exact .inl ⟨_, e⟩
  · exact .inr e

/-- A TRAP has a next state, but for a PUTS or PUTSP whose scan is refused. -/
theorem execTrap_next_or_refused (v : Byte) (s : State) :
    (∃ t, execTrap v s = .next t) ∨ ((v = 0x22 ∨ v = 0x24) ∧ execTrap v s = .refused .scanReachesKbsr) := by
  unfold execTrap
  split
  next => exact .inl (resumeWait_next .getc s)
  next => exact .inl ⟨_, rfl⟩
  next hv => exact (writeString_next_or_refused _ _ s).imp_right fun h => ⟨.inl ((trapService_puts v).1 hv), h⟩
  next => exact .inl (resumeWait_next .inp (s.writeBytes s.params.inPrompt))
  next hv => exact (writeString_next_or_refused _ _ s).imp_right fun h => ⟨.inr ((trapService_putsp v).1 hv), h⟩
  next => exact .inl ⟨_, rfl⟩
  next => unfold serviceUnknown; split <;> exact .inl ⟨_, rfl⟩

/-- An instruction has a next state, but for a PUTS or PUTSP whose scan is refused. -/
theorem exec_next_or_refused (i : Instr) (s : State) :
    (∃ t, exec i s = .next t) ∨ ((i = .trap 0x22 ∨ i = .trap 0x24) ∧ exec i s = .refused .scanReachesKbsr) := by
  cases i with
  | trap v =>
    simp only [Instr.trap.injEq]
    exact execTrap_next_or_refused v s
  | _ => exact .inl ⟨_, rfl⟩

/-- A step from `running` never answers a fault: a wait goes on, a cancellation is honoured, or an instruction runs. -/
theorem step_running_ne_fault {s : State} (hr : s.run = .running) (f : Fault) : step s ≠ .fault f := by
  intro h
  cases hw : s.waiting with
  | some w =>
    obtain ⟨t, ht⟩ := resumeWait_next w s
    cases h.symm.trans ((step_waiting hr hw).trans ht)
  | none =>
    cases hc : s.cancelReq with
    | true => cases h.symm.trans (step_cancel hr hw hc)
    | false =>
      rw [step_cycle hr hw hc] at h
      rcases exec_next_or_refused (decode (fetch s).ir) (fetch s) with ⟨t, ht⟩ | ⟨_, ht⟩ <;> cases h.symm.trans ht

theorem step_halted {s : State} (h : s.run = .halted) : step s = .fault .stoppedHalted := by
  simp [step, h]

theorem step_faulted {s : State} {r : FaultRecord} (h : s.run = .faulted r) : step s = .fault (.stoppedFaulted r) := by
  simp [step, h]

theorem step_cancelled {s : State} (h : s.run = .cancelled) : step s = .fault .stoppedCancelled := by
  simp [step, h]

/-- Settles O41: each terminal run state answers its own fault, and `running` answers none. -/
theorem terminalStateHasNoStep : Obligations.TerminalStateHasNoStep := by
  unfold Obligations.TerminalStateHasNoStep
  intro s
  refine ⟨⟨fun hne => ?_, fun ⟨f, hf⟩ hr => step_running_ne_fault hr f hf⟩, step_halted, fun _ => step_faulted,
    step_cancelled⟩
  cases h : s.run with
  | running => exact absurd h hne
  | halted => exact ⟨_, step_halted h⟩
  | faulted r => exact ⟨_, step_faulted h⟩
  | cancelled => exact ⟨_, step_cancelled h⟩

/-! ### How the run state changes -/

@[simp] theorem fetch_run (s : State) : (fetch s).run = s.run := memRead_run s.pc s
@[simp] theorem fetch_params (s : State) : (fetch s).params = s.params := memRead_params s.pc s

@[simp] theorem writeInputWord_run (w : Word) (s : State) : (writeInputWord w s).run = s.run := by
  rw [writeInputWord_eq]; rfl

/-- A blocking read, answered or not, leaves the run state. -/
theorem resumeWait_run {w : Waiting} {s t : State} (h : resumeWait w s = .next t) : t.run = s.run := by
  cases w with
  | getc =>
    rcases serviceGetc_cases s with ⟨w, _, _, e⟩ | ⟨_, e⟩ <;> cases e.symm.trans h
    · exact writeInputWord_run w _
    · rfl
  | inp =>
    rcases inAfterPrompt_cases s with ⟨w, _, _, e⟩ | ⟨_, e⟩ <;> cases e.symm.trans h
    · exact writeInputWord_run w _
    · rfl

theorem writeString_run {ends : Word → Bool} {chars : Word → List Byte} {s t : State}
    (h : writeString ends chars s = .next t) : t.run = s.run := by
  rcases writeString_cases ends chars s with ⟨_, _, e⟩ | ⟨_, e⟩ <;> cases e.symm.trans h
  rfl

/-- Instruction `i` run with parameters `p` faults the core: an illegal opcode, or an unknown vector where those fault
(40_fetch_execute.md R128). -/
def Faulting (p : Params) (i : Instr) : Prop :=
  i = .rti ∨ i = .res ∨ ∃ v, i = .trap v ∧ (v.toNat < 0x20 ∨ 0x25 < v.toNat) ∧ p.unknownTrap = .fault

/-- How instruction `i` may leave the run state: as it was, halted by HALT, or faulted by a faulting instruction. -/
def RunAfter (i : Instr) (s t : State) : Prop :=
  t.run = s.run ∨ (t.run = .halted ∧ i = .trap 0x25) ∨ ∃ r, t.run = .faulted r ∧ Faulting s.params i

theorem execTrap_runAfter {v : Byte} {s t : State} (h : execTrap v s = .next t) : RunAfter (.trap v) s t := by
  unfold execTrap at h
  split at h
  next => exact .inl (resumeWait_run (w := .getc) h)
  next => cases h; exact .inl rfl
  next => exact .inl (writeString_run h)
  next => exact .inl (resumeWait_run (w := .inp) (s := s.writeBytes s.params.inPrompt) h)
  next => exact .inl (writeString_run h)
  next hv => cases h; exact .inr (.inl ⟨rfl, congrArg _ ((trapService_halt v).1 hv)⟩)
  next hv =>
    unfold serviceUnknown at h
    split at h <;> cases h
    next => exact .inl rfl
    next hp => exact .inr (.inr ⟨_, rfl, .inr (.inr ⟨v, rfl, (trapService_unknown v).1 hv, hp⟩)⟩)

theorem exec_runAfter {i : Instr} {s t : State} (h : exec i s = .next t) : RunAfter i s t := by
  cases i with
  | addReg | addImm | andReg | andImm | not | lea | jmp | jsr | jsrr | st | str => cases h; exact .inl rfl
  | br => cases h; split <;> exact .inl rfl
  | ld | ldr | sti => cases h; exact .inl (memRead_run ..)
  | ldi => cases h; exact .inl ((memRead_run ..).trans (memRead_run ..))
  | trap v => exact execTrap_runAfter h
  | rti => cases h; exact .inr (.inr ⟨_, rfl, .inl rfl⟩)
  | res => cases h; exact .inr (.inr ⟨_, rfl, .inr (.inl rfl)⟩)

/-- Settles O43: of the three kinds of step a wait keeps the run state, and a cycle ends the run as its instruction does. -/
theorem threeWaysToEnd : Obligations.ThreeWaysToEnd := by
  unfold Obligations.ThreeWaysToEnd
  intro s t h hend
  obtain ⟨hr, ⟨w, _, hwait⟩ | ⟨hw, hc, rfl⟩ | ⟨hw, hc, hexec⟩⟩ := step_cases h
  · exact absurd ((resumeWait_run hwait).trans hr) hend
  · exact ⟨hw, .inl ⟨rfl, hc⟩⟩
  · refine ⟨hw, .inr ⟨hc, ?_⟩⟩
    have hafter := exec_runAfter hexec
    rw [RunAfter, fetch_run, fetch_params, fetch_ir] at hafter
    exact hafter.resolve_left fun e => hend (e.trans hr)

end Sys2Proof.Machine
end

section
/-! Words and the instructions they spell: the decoder reads each field of the format tables (30_encoding.md R92 to R104). -/

namespace Sys2Proof

/-- The opcode of a word whose bits 15 to 12 are the number `n`. -/
theorem opcodeOf_of_opcodeField {w : Word} {n : BitVec 4} (h : w.extractLsb' 12 4 = n) :
    opcodeOf w = Opcode.ofBits (n.getLsbD 3) (n.getLsbD 2) (n.getLsbD 1) (n.getLsbD 0) := by
  simp [opcodeOf, bit, ← h]

/-- The opcode field selects the decoder's arm; in it a bit or a register is what its field of the word says. -/
theorem decodes (i : Instr) : Decodes i := by
  intro w h
  cases i with
  | rti | res => simp [decode, opcodeOf_of_opcodeField h, Opcode.ofBits]
  | addReg | addImm | andReg | andImm | not | br | jmp | jsr | jsrr | ld | ldi | ldr | lea | st | sti | str | trap =>
    obtain ⟨hop, hfields⟩ := h
    simp [decode, opcodeOf_of_opcodeField hop, Opcode.ofBits, bit_eq, regField_eq, field, hfields]

end Sys2Proof
end

section
/-! Operate instructions: each writes its result and the condition code of it, and nothing else (41_operate.md). -/

namespace Sys2Proof.Machine

theorem writeResult_resultWritten (dr : Reg) (v : Word) (s : State) : ResultWritten dr v s (writeResult dr v s) where
  result := by rw [writeResult_eq, State.setCond_reg, State.setReg_reg, if_pos rfl]
  cond := rfl
  regs r hr := by rw [writeResult_eq, State.setCond_reg, State.setReg_reg, if_neg hr]
  pc := rfl
  memory _ := rfl
  console := ⟨rfl, rfl⟩
  control := ⟨⟨rfl, rfl, rfl, rfl, rfl⟩, rfl⟩

/-- What the rules of the operate instructions say, of any instruction whose meaning is to write a result. -/
theorem decodes_and_resultWritten {i : Instr} {dr : Reg} {v : Word} {s : State}
    (h : exec i s = .next (writeResult dr v s)) :
    Decodes i ∧ ∃ t, exec i s = .next t ∧ ResultWritten dr v s t :=
  ⟨decodes i, _, h, writeResult_resultWritten dr v s⟩

/-- Settles O4: ADD's meaning is to write the sum of its source registers. -/
theorem addRegisterForm : Obligations.AddRegisterForm := by
  unfold Obligations.AddRegisterForm
  exact fun s dr sr1 sr2 => decodes_and_resultWritten rfl

/-- Settles O5: the meaning of ADD with an immediate is to write the sum of its source and the widened immediate. -/
theorem addImmediateForm : Obligations.AddImmediateForm := by
  unfold Obligations.AddImmediateForm
  exact fun s dr sr1 imm5 => decodes_and_resultWritten rfl

/-- Settles O6: AND's meaning is to write the bitwise AND of its source registers. -/
theorem andRegisterForm : Obligations.AndRegisterForm := by
  unfold Obligations.AndRegisterForm
  exact fun s dr sr1 sr2 => decodes_and_resultWritten rfl

/-- Settles O7: the meaning of AND with an immediate is to write the bitwise AND of its source and the widened immediate. -/
theorem andImmediateForm : Obligations.AndImmediateForm := by
  unfold Obligations.AndImmediateForm
  exact fun s dr sr1 imm5 => decodes_and_resultWritten rfl

/-- Settles O8: NOT's meaning is to write the bitwise complement of its source. -/
theorem notComplements : Obligations.NotComplements := by
  unfold Obligations.NotComplements
  exact fun s dr sr => decodes_and_resultWritten rfl

/-- Settles O3: ADD's result is a sum of words, which wraps in both readings, and its frame keeps the run state. -/
theorem additionWrapsSilently : Obligations.AdditionWrapsSilently := by
  unfold Obligations.AdditionWrapsSilently
  intro s dr sr1 sr2
  obtain ⟨_, t, hexec, hwritten⟩ := addRegisterForm s dr sr1 sr2
  refine ⟨t, hexec, ?_, ?_, hwritten.control.run⟩ <;> rw [hwritten.result]
  · exact BitVec.toNat_add _ _
  · exact BitVec.toInt_add _ _

end Sys2Proof.Machine
end

section
/-! Control transfer: each sets PC, JSR also the link register, and nothing else (42_control.md). -/

namespace Sys2Proof.Machine

/-- The mask test as 42_control.md R160 words it. -/
theorem branchTaken_iff (n z p : Bool) (c : Cond) :
    branchTaken n z p c = true ↔ n = true ∧ c = .neg ∨ z = true ∧ c = .zro ∨ p = true ∧ c = .pos := by
  simp [branchTaken, or_assoc]

theorem setPc_jumped (target : Word) (s : State) : Jumped target s (s.setPc target) where
  pc := rfl
  regs _ := rfl
  cond := rfl
  memory _ := rfl
  console := ⟨rfl, rfl⟩
  control := ⟨⟨rfl, rfl, rfl, rfl, rfl⟩, rfl⟩

theorem setReg_setPc_linked (link target : Word) (s : State) :
    Linked link target s ((s.setReg .r7 link).setPc target) where
  link := by rw [State.setPc_reg, State.setReg_reg, if_pos rfl]
  pc := rfl
  regs r hr := by rw [State.setPc_reg, State.setReg_reg, if_neg hr]
  cond := rfl
  memory _ := rfl
  console := ⟨rfl, rfl⟩
  control := ⟨⟨rfl, rfl, rfl, rfl, rfl⟩, rfl⟩

theorem exec_br_taken {n z p : Bool} {s : State} (h : branchTaken n z p s.cond = true) (off9 : BitVec 9) :
    exec (.br n z p off9) s = .next (s.setPc (s.pc + sext off9)) :=
  congrArg Host.Outcome.next (if_pos h)

theorem exec_br_not_taken {n z p : Bool} {s : State} (h : ¬ branchTaken n z p s.cond = true) (off9 : BitVec 9) :
    exec (.br n z p off9) s = .next s :=
  congrArg Host.Outcome.next (if_neg h)

/-- Settles O9: a taken branch sets PC to its target; a branch not taken leaves the state, PC included, as it is. -/
theorem brFollowsTheMask : Obligations.BrFollowsTheMask := by
  unfold Obligations.BrFollowsTheMask
  intro s n z p off9
  refine ⟨decodes _, ?_⟩
  rw [← branchTaken_iff]
  by_cases h : branchTaken n z p s.cond = true
  · exact ⟨_, exec_br_taken h off9, fun _ => setPc_jumped _ s, fun hnot => absurd h hnot⟩
  · exact ⟨s, exec_br_not_taken h off9, fun htaken => absurd htaken h, fun _ => setPc_jumped s.pc s⟩

/-- Settles O10: JMP's meaning is to set PC to its base register. -/
theorem jmpGoesToTheBase : Obligations.JmpGoesToTheBase := by
  unfold Obligations.JmpGoesToTheBase
  exact fun s base => ⟨decodes _, _, rfl, setPc_jumped (s.reg base) s⟩

/-- Settles O11: JSR's meaning is to write the incremented PC to R7 and set PC to its PC-relative target. -/
theorem jsrLinksAndJumps : Obligations.JsrLinksAndJumps := by
  unfold Obligations.JsrLinksAndJumps
  exact fun s off11 => ⟨decodes _, _, rfl, setReg_setPc_linked s.pc (s.pc + sext off11) s⟩

end Sys2Proof.Machine
end

section
/-! Loads and stores: a load is one MemRead and a result written, a store one MemWrite, and the indirect forms read their
pointer by a MemRead first (43_load_store.md). -/

namespace Sys2Proof.Machine

/-! ### What a MemRead does (20_memory.md R63) -/

theorem memRead_kbsr_ready {s : State} {w : Word} {rest : List InputEvent} (h : PollFinds s w rest) :
    (memRead s.params.kbsrAddr s).2 =
      ((s.setCell s.params.kbsrAddr 0x8000).setInput rest).setCell s.params.kbdrAddr w := by
  rw [memRead_kbsr, pollKeyboard_ready h]

theorem memRead_kbsr_notReady {s : State} (h : PollFindsNothing s) :
    (memRead s.params.kbsrAddr s).2 = (s.setInput s.input.tail).setCell s.params.kbsrAddr 0x0000 := by
  rw [memRead_kbsr, pollKeyboard_notReady h]

/-- The value that a read of `KBSR_ADDR` returns is the one that its poll left there. -/
theorem memRead_kbsr_value (s : State) :
    (memRead s.params.kbsrAddr s).1 = (memRead s.params.kbsrAddr s).2.cell s.params.kbsrAddr := by
  rw [memRead_kbsr]

/-- Away from `KBSR_ADDR` nothing happens; there the poll writes KBSR, and KBDR too when it is ready. -/
theorem memRead_readEffect (a : Word) (s : State) : ReadEffect a s (memRead a s).1 (memRead a s).2 where
  regs := memRead_reg a s
  cond := memRead_cond a s
  pc := memRead_pc a s
  bytes := memRead_outBytes a s
  control := ⟨⟨memRead_cancelReq a s, memRead_waiting a s, memRead_ir a s, memRead_whenEmpty a s, memRead_params a s⟩,
    memRead_run a s⟩
  plain ha := by
    rw [memRead_plain ha]
    exact ⟨rfl, fun _ => rfl, rfl⟩
  ready w rest ha h := by
    subst ha
    refine ⟨memRead_kbsr_value s, ?_⟩
    rw [memRead_kbsr_value, memRead_kbsr_ready h]
    exact ⟨by simp, rfl, fun hd => by simp [hd], fun b hsr hdr => by simp [hsr, hdr]⟩
  notReady ha h := by
    subst ha
    rw [memRead_kbsr_value, memRead_kbsr_notReady h]
    exact ⟨by simp, by simp, rfl, fun b hb => by simp [hb]⟩

theorem indirect_readEffect (off9 : BitVec 9) (s : State) :
    ReadEffect (s.pc + sext off9) s (indirect off9 s).1 (indirect off9 s).2 :=
  memRead_readEffect (pcRelative off9 s) s

/-- No register changes while the pointer is read. -/
theorem indirect_reg (off9 : BitVec 9) (s : State) (r : Reg) : (indirect off9 s).2.reg r = s.reg r :=
  memRead_reg (pcRelative off9 s) s r

/-! ### The loads -/

theorem loadFrom_loaded (dr : Reg) (ea : Word) (s : State) : Loaded dr ea s (loadFrom dr ea s) :=
  ⟨memRead_readEffect ea s, writeResult_resultWritten dr _ _⟩

/-- Settles O15: LD's meaning is a load from its PC-relative address. -/
theorem ldLoadsPcRelative : Obligations.LdLoadsPcRelative := by
  unfold Obligations.LdLoadsPcRelative
  exact fun s dr off9 => ⟨decodes _, _, rfl, loadFrom_loaded dr (s.pc + sext off9) s⟩

/-- Settles O16: LDI's meaning is a load through the pointer, from the state that the pointer's read left. -/
theorem ldiLoadsThroughThePointer : Obligations.LdiLoadsThroughThePointer := by
  unfold Obligations.LdiLoadsThroughThePointer
  exact fun s dr off9 => ⟨decodes _, indirect_readEffect off9 s, _, rfl, loadFrom_loaded dr _ _⟩

/-- Settles O17: LDR's meaning is a load from its base-plus-offset address. -/
theorem ldrLoadsBasePlusOffset : Obligations.LdrLoadsBasePlusOffset := by
  unfold Obligations.LdrLoadsBasePlusOffset
  exact fun s dr base off6 => ⟨decodes _, _, rfl, loadFrom_loaded dr (s.reg base + sext off6) s⟩

/-- Settles O18: LEA's meaning is to write its PC-relative address as a result, with no MemRead. -/
theorem leaGivesTheAddress : Obligations.LeaGivesTheAddress := by
  unfold Obligations.LeaGivesTheAddress
  exact fun s dr off9 => decodes_and_resultWritten rfl

/-! ### The stores -/

/-- Settles O19: ST's meaning is a MemWrite at its PC-relative address. -/
theorem stStoresPcRelative : Obligations.StStoresPcRelative := by
  unfold Obligations.StStoresPcRelative
  exact fun s sr off9 => ⟨decodes _, _, rfl, memWrite_stored (s.pc + sext off9) (s.reg sr) s⟩

/-- Settles O20: STI's meaning is a MemWrite through the pointer, of a register that the pointer's read left as it was. -/
theorem stiStoresThroughThePointer : Obligations.StiStoresThroughThePointer := by
  unfold Obligations.StiStoresThroughThePointer
  intro s sr off9
  refine ⟨decodes _, indirect_readEffect off9 s, _, rfl, ?_⟩
  rw [indirect_reg]
  exact memWrite_stored (indirect off9 s).1 (s.reg sr) (indirect off9 s).2

/-- Settles O21: STR's meaning is a MemWrite at its base-plus-offset address. -/
theorem strStoresBasePlusOffset : Obligations.StrStoresBasePlusOffset := by
  unfold Obligations.StrStoresBasePlusOffset
  exact fun s sr base off6 => ⟨decodes _, _, rfl, memWrite_stored (s.reg base + sext off6) (s.reg sr) s⟩

end Sys2Proof.Machine
end

section
/-! TRAP x20 and TRAP x23 while the console does not answer: the core waits inside the service (40_fetch_execute.md R129). -/

namespace Sys2Proof.Machine

/-- GETC is its blocking read alone (44_trap.md R202). -/
theorem exec_trap_getc (s : State) : exec (.trap 0x20) s = resumeWait .getc s := rfl

/-- IN writes its prompt before its blocking read (44_trap.md R205). -/
theorem exec_trap_in (s : State) : exec (.trap 0x23) s = resumeWait .inp (s.writeBytes s.params.inPrompt) := rfl

/-- A blocking read that does not return leaves the core inside it, whether or not it was before. -/
theorem resumeWait_of_readBlocks {s : State} (v : Waiting) (hb : ReadBlocks s) :
    resumeWait v s = .next (s.setWaiting (some v)) := by
  cases v with
  | getc => rw [resumeWait, serviceGetc, consoleRead_blocks hb]
  | inp => rw [resumeWait, inAfterPrompt, consoleRead_blocks hb]

theorem suspended_setWaiting (v : Waiting) (bs : List Byte) (s : State) :
    Suspended v bs s ((s.writeBytes bs).setWaiting (some v)) where
  bytes := by rw [State.setWaiting_outBytes, State.writeBytes, State.emit_outBytes, bytesOf_map_byte]
  regs _ := rfl
  cond := rfl
  pc := rfl
  memory _ := rfl
  input := rfl
  waiting := rfl
  run := rfl
  cancelReq := rfl
  ir := rfl
  whenEmpty := rfl
  params := rfl

/-- A blocking read that does not return after the bytes `bs`: writing them takes no input, so the read still blocks. -/
theorem resumeWait_suspends {s : State} (v : Waiting) (bs : List Byte) (hb : ReadBlocks s) :
    ∃ t, resumeWait v (s.writeBytes bs) = .next t ∧ Suspended v bs s t :=
  ⟨_, resumeWait_of_readBlocks v (s := s.writeBytes bs) hb, suspended_setWaiting v bs s⟩

/-- Settles O25: both services end in a blocking read that does not return, GETC's after no byte and IN's after its prompt. -/
theorem blockingReadSuspends : Obligations.BlockingReadSuspends := by
  unfold Obligations.BlockingReadSuspends
  intro s hb
  have hgetc := resumeWait_suspends .getc [] hb
  rw [State.writeBytes, List.map_nil, State.emit_nil] at hgetc
  rw [exec_trap_getc, exec_trap_in]
  exact ⟨hgetc, resumeWait_suspends .inp s.params.inPrompt hb⟩

end Sys2Proof.Machine
end

section
/-! The illegal opcodes: each raises its fault, which only sets the run state (45_illegal.md, 60_exceptions.md R241). -/

namespace Sys2Proof.Machine

/-- A fault ends the run with a record of its cause and changes nothing else. -/
theorem raiseFault_ended (cause : FaultCause) (s : State) :
    ∃ r, r.cause = cause ∧ Ended (.faulted r) s (raiseFault cause s) := by
  rw [raiseFault_eq]
  exact ⟨⟨cause, s.pc - 1, s.ir⟩, rfl, ended_setRun _ s⟩

/-- What the rules of the illegal opcodes say, of any instruction whose meaning is to raise a fault. -/
theorem decodes_and_faulted {i : Instr} {cause : FaultCause} {s : State}
    (h : exec i s = .next (raiseFault cause s)) :
    Decodes i ∧ ∃ t r, exec i s = .next t ∧ r.cause = cause ∧ Ended (.faulted r) s t := by
  obtain ⟨r, hcause, hended⟩ := raiseFault_ended cause s
  exact ⟨decodes i, _, r, h, hcause, hended⟩

/-- Settles O35: RTI's meaning is to raise IllegalOpcode(0x8). -/
theorem rtiFaults : Obligations.RtiFaults := by
  unfold Obligations.RtiFaults
  exact fun s => decodes_and_faulted rfl

/-- Settles O36: RES's meaning is to raise IllegalOpcode(0xD). -/
theorem resFaults : Obligations.ResFaults := by
  unfold Obligations.ResFaults
  exact fun s => decodes_and_faulted rfl

end Sys2Proof.Machine
end

section
/-! TRAP saves no link (44_trap.md R200, R210, 60_exceptions.md R248): what a service leaves unchanged beside the registers, PC
and memory. -/

namespace Sys2Proof.Machine

/-- A blocking read, answered or not, leaves the fetched word. -/
theorem resumeWait_ir {v : Waiting} {s t : State} (h : resumeWait v s = .next t) : t.ir = s.ir := by
  rcases read_cases s with ⟨w, rest, hr⟩ | hb
  · cases (resumeWait_answered hr).symm.trans h
    rw [writeInputWord_eq]
    rfl
  · cases (resumeWait_of_readBlocks v hb).symm.trans h
    rfl

theorem writeString_frame {ends : Word → Bool} {chars : Word → List Byte} {s t : State}
    (h : writeString ends chars s = .next t) : t = { s with run := t.run, output := t.output } := by
  rcases writeString_cases ends chars s with ⟨_, _, e⟩ | ⟨_, e⟩ <;> cases e.symm.trans h
  rfl

theorem serviceUnknown_frame {v : Byte} {s t : State} (h : serviceUnknown v s = .next t) :
    t = { s with run := t.run, output := t.output } := by
  unfold serviceUnknown at h
  split at h <;> cases h <;> rfl

/-- A TRAP that reads no input changes the output and the run state alone. -/
theorem execTrap_frame {v : Byte} {s t : State} (hgetc : v ≠ 0x20) (hin : v ≠ 0x23) (h : execTrap v s = .next t) :
    t = { s with run := t.run, output := t.output } := by
  unfold execTrap at h
  cases hv : trapService v <;> rw [hv] at h
  case getc => exact absurd ((trapService_getc v).1 hv) hgetc
  case inp => exact absurd ((trapService_inp v).1 hv) hin
  case out | halt => cases h; rfl
  case puts | putsp => exact writeString_frame h
  case unknown => exact serviceUnknown_frame h

theorem execTrap_ir {v : Byte} {s t : State} (h : execTrap v s = .next t) : t.ir = s.ir := by
  by_cases hgetc : v = 0x20
  · subst hgetc
    exact resumeWait_ir (v := .getc) h
  by_cases hin : v = 0x23
  · subst hin
    exact resumeWait_ir (v := .inp) (s := s.writeBytes s.params.inPrompt) h
  rw [execTrap_frame hgetc hin h]

/-- Settles O34: `exec_within` bounds the registers and PC, the services write no memory, and only GETC and IN take input. -/
theorem trapSavesNoLink : Obligations.TrapSavesNoLink := by
  unfold Obligations.TrapSavesNoLink
  intro s t v h
  have hwithin := exec_within h
  refine ⟨fun r hr => hwithin.regs r ?_, hwithin.pc rfl, fun a => ?_, hwithin.params, hwithin.cancelReq, execTrap_ir h,
    fun hgetc hin => ?_⟩
  · rw [destReg]
    split
    · exact fun e => hr (Option.some.inj e).symm
    · nofun
  · rw [State.cell, execTrap_mem h, State.cell]
  · rw [execTrap_frame hgetc hin h]
    exact ⟨rfl, rfl, rfl⟩

end Sys2Proof.Machine
end

section
/-! The outcomes of a step (40_fetch_execute.md R130): a running core goes on, or its string scan is refused. -/

namespace Sys2Proof.Machine

/-- Settles O42: a wait and a cancellation have a next state, and of the instructions only a refused scan has none. -/
theorem runningStepHasANextState : Obligations.RunningStepHasANextState := by
  unfold Obligations.RunningStepHasANextState
  intro s hr
  cases hw : s.waiting with
  | some w => exact .inl (step_waiting hr hw ▸ resumeWait_next w s)
  | none =>
    cases hc : s.cancelReq with
    | true => exact .inl ⟨_, step_cancel hr hw hc⟩
    | false =>
      rw [step_cycle hr hw hc, ← fetch_ir]
      exact (exec_next_or_refused (decode (fetch s).ir) (fetch s)).imp_right fun ⟨hi, he⟩ => ⟨he, rfl, rfl, hi⟩

end Sys2Proof.Machine
end

section
/-! The cause of a fault (60_exceptions.md R244): which cause an instruction that faults records. -/

namespace Sys2Proof.Machine

/-- The cause that an instruction faults with under the parameters `p` (60_exceptions.md R241, R243). -/
inductive FaultsWith (p : Params) : Instr → FaultCause → Prop where
  | rti : FaultsWith p .rti (.illegalOpcode 0x8)
  | res : FaultsWith p .res (.illegalOpcode 0xD)
  | unknownTrap {v : Byte} (hv : v.toNat < 0x20 ∨ 0x25 < v.toNat) (hp : p.unknownTrap = .fault) :
      FaultsWith p (.trap v) (.unknownTrap v)

theorem exec_trap_unknown_fault {v : Byte} {s : State} (hv : v.toNat < 0x20 ∨ 0x25 < v.toNat)
    (hp : s.params.unknownTrap = .fault) : exec (.trap v) s = .next (raiseFault (.unknownTrap v) s) := by
  simp only [exec, execTrap, (trapService_unknown v).2 hv, serviceUnknown, hp]

/-- An instruction that ends a running core as faulted has raised the fault of its own cause, and done nothing else. -/
theorem exec_faulted {i : Instr} {s t : State} {r : FaultRecord} (h : exec i s = .next t) (hr : s.run = .running)
    (ht : t.run = .faulted r) : FaultsWith s.params i r.cause ∧ t = raiseFault r.cause s := by
  rcases exec_runAfter h with hsame | ⟨hhalt, _⟩ | ⟨_, _, rfl | rfl | ⟨v, rfl, hv, hp⟩⟩
  · cases ht.symm.trans (hsame.trans hr)
  · cases ht.symm.trans hhalt
  · cases h; cases ht
    exact ⟨.rti, rfl⟩
  · cases h; cases ht
    exact ⟨.res, rfl⟩
  · cases (exec_trap_unknown_fault hv hp).symm.trans h; cases ht
    exact ⟨.unknownTrap hv hp, rfl⟩

/-- A step that ends faulted ran, at a cycle boundary, the instruction it fetched, which faults with the recorded cause. -/
theorem step_faulted_cause {s t : State} {r : FaultRecord} (h : step s = .next t) (ht : t.run = .faulted r) :
    FaultsWith s.params (decode (memRead s.pc s).1) r.cause := by
  obtain ⟨hr, ⟨w, _, hwait⟩ | ⟨_, _, rfl⟩ | ⟨_, _, hexec⟩⟩ := step_cases h
  · cases ht.symm.trans ((resumeWait_run hwait).trans hr)
  · cases ht
  · rw [← fetch_ir, ← fetch_params]
    exact (exec_faulted hexec ((fetch_run s).trans hr) ht).1

/-- A byte widened to a word keeps its value (00_scope.md R12). -/
theorem zext_byte_toNat (v : Byte) : (zext v).toNat = v.toNat :=
  BitVec.toNat_setWidth_of_le (by decide)

/-- Settles O60, by cases on what faults: each has its cause code and recorded value. -/
theorem faultedStepHasItsCauseCode : Obligations.FaultedStepHasItsCauseCode := by
  unfold Obligations.FaultedStepHasItsCauseCode
  intro s t r h ht
  have hcause := step_faulted_cause h ht
  generalize decode (memRead s.pc s).1 = i at hcause ⊢
  generalize r.cause = c at hcause ⊢
  cases hcause with
  | rti => exact .inl ⟨rfl, .inl ⟨rfl, rfl⟩⟩
  | res => exact .inl ⟨rfl, .inr ⟨rfl, rfl⟩⟩
  | unknownTrap hv hp => exact .inr ⟨rfl, hp, _, rfl, hv, zext_byte_toNat _⟩

end Sys2Proof.Machine
end

section
/-! The format tables (30_encoding.md R90 to R107): a word spells the instruction it decodes to, an instruction is spelled by the
word that encodes it, and the ignored bits (R106) lie in no field of a format. -/

namespace Sys2Proof

/-! ### Decoding is the format tables -/

theorem ofBool_bit (w : Word) (k : Nat) : BitVec.ofBool (bit w k) = w.extractLsb' k 1 := ((bit_eq w k _).1 rfl).symm

/-- The opcode and the mode bit select the decoder's arm; each operand it takes is a field of the word. -/
theorem hasFormat_decode (w : Word) : HasFormat (decode w) w := by
  cases hop : opcodeOf w with
  | add | and =>
    cases hmode : bit w 5
    all_goals simp [decode, hop, hmode, HasFormat, ← opcodeOf_bits, Opcode.bits, ← ofBool_bit, regField_bits, field]
  | jsr =>
    cases hmode : bit w 11
    all_goals simp [decode, hop, hmode, HasFormat, ← opcodeOf_bits, Opcode.bits, ← ofBool_bit, regField_bits, field]
  | br | ld | st | ldr | str | rti | not | ldi | sti | jmp | res | lea | trap =>
    simp [decode, hop, HasFormat, ← opcodeOf_bits, Opcode.bits, ← ofBool_bit, regField_bits, field]

/-- Settles O57: a word spells the instruction it decodes to, and decodes to every instruction it spells. -/
theorem decodeIsTheFormatTables : Obligations.DecodeIsTheFormatTables := by
  unfold Obligations.DecodeIsTheFormatTables
  exact fun w i => ⟨fun h => h ▸ hasFormat_decode w, decodes i w⟩

/-! ### Decoding after encoding -/

/-- A field of the high part of a concatenation lies past the low part. -/
theorem extractLsb'_append_add {v w lo n : Nat} {x : BitVec v} {y : BitVec w} {f : BitVec n}
    (h : x.extractLsb' lo n = f) : (x ++ y).extractLsb' (lo + w) n = f := by
  rw [BitVec.extractLsb'_append_eq_of_le (Nat.le_add_left w lo), Nat.add_sub_cancel, h]

/-- Each field of a format is the part of the encoded word that is reached past the parts to its right. -/
theorem hasFormat_encode (i : Instr) : HasFormat i (encode i) := by
  cases i <;>
    apply_rules [And.intro, extractLsb'_append_add, BitVec.extractLsb'_append_eq_right, BitVec.extractLsb'_eq_self]

/-- Settles O56: an instruction is spelled by the word that encodes it, which therefore decodes to it. -/
theorem decodeAfterEncodeIsTheInstruction : Obligations.DecodeAfterEncodeIsTheInstruction := by
  unfold Obligations.DecodeAfterEncodeIsTheInstruction
  exact fun i => decodes i (encode i) (hasFormat_encode i)

/-- Settles O55: the decoder, evaluated on each word. -/
theorem exampleWordsDecode : Obligations.ExampleWordsDecode := by
  unfold Obligations.ExampleWordsDecode
  decide

/-! ### Ignored bits -/

/-- Words that differ in the bits of `ignored` alone agree in every field that has none of them. -/
theorem field_eq_of_agree {w x ignored : Word} {lo n : Nat} (h : (w ^^^ x) &&& ~~~ignored = 0)
    (hfield : (~~~ignored).extractLsb' lo n = BitVec.allOnes n) : x.extractLsb' lo n = w.extractLsb' lo n := by
  have hxor := congrArg (BitVec.extractLsb' lo n) h
  rw [BitVec.extractLsb'_and, BitVec.extractLsb'_xor, hfield, BitVec.and_allOnes] at hxor
  exact (BitVec.xor_eq_zero_iff.1 (hxor.trans BitVec.extractLsb'_zero)).symm

/-- No field of a format has an ignored bit, so words that differ in those alone spell the same instruction. -/
theorem hasFormat_of_agree {i : Instr} {w x : Word} (h : (w ^^^ x) &&& ~~~(ignoredBits i) = 0) (hw : HasFormat i w) :
    HasFormat i x := by
  cases i <;> simp only [ignoredBits] at h <;> simpa (disch := decide) only [HasFormat, field_eq_of_agree h] using hw

/-- Settles O59: the second word spells the first word's instruction, and so decodes to it. -/
theorem ignoredBitsDoNotMatter : Obligations.IgnoredBitsDoNotMatter := by
  unfold Obligations.IgnoredBitsDoNotMatter
  exact fun w x h => decodes _ x (hasFormat_of_agree h (hasFormat_decode w))

end Sys2Proof
end

section
/-! The fault record (60_exceptions.md R242, decision D19): the step that faults, the record it leaves and the word it names. -/

namespace Sys2Proof.Machine

/-- The fields of a word that faults with this cause under the parameters `p` (60_exceptions.md R242, R244). -/
def FaultCause.Fits (p : Params) (w : Word) : FaultCause → Prop
  | .illegalOpcode op => w.extractLsb' 12 4 = op ∧ (op = 0x8 ∨ op = 0xD)
  | .unknownTrap v => w.extractLsb' 12 4 = 0xF ∧ w.extractLsb' 0 8 = v ∧ (v.toNat < 0x20 ∨ 0x25 < v.toNat) ∧
      p.unknownTrap = .fault

/-- The format of the instruction that faults gives the fields of its word. -/
theorem FaultsWith.fits {p : Params} {w : Word} {c : FaultCause} (h : FaultsWith p (decode w) c) : c.Fits p w := by
  have hformat := hasFormat_decode w
  generalize decode w = i at h hformat
  cases h with
  | rti => exact ⟨hformat, .inl rfl⟩
  | res => exact ⟨hformat, .inr rfl⟩
  | unknownTrap hv hp =>
    obtain ⟨hop, hvector⟩ := hformat
    exact ⟨hop, hvector, hv, hp⟩

/-- A step that ends faulted is a fetch and the entry of that fault. -/
theorem step_faulted_eq {s t : State} {r : FaultRecord} (h : step s = .next t) (ht : t.run = .faulted r) :
    t = raiseFault r.cause (fetch s) := by
  obtain ⟨hr, ⟨w, _, hwait⟩ | ⟨_, _, rfl⟩ | ⟨_, _, hexec⟩⟩ := step_cases h
  · cases ht.symm.trans ((resumeWait_run hwait).trans hr)
  · cases ht
  · exact (exec_faulted hexec ((fetch_run s).trans hr) ht).2

theorem step_faulted_record {s t : State} {r : FaultRecord} (h : step s = .next t) (ht : t.run = .faulted r) :
    r = ⟨r.cause, s.pc, (memRead s.pc s).1⟩ := by
  have hrun : RunState.faulted r = .faulted ⟨r.cause, s.pc + 1 - 1, (memRead s.pc s).1⟩ :=
    ht.symm.trans (congrArg State.run (step_faulted_eq h ht))
  rw [BitVec.add_sub_cancel] at hrun
  exact RunState.faulted.inj hrun

/-- Settles O37: the record is that of a fault raised after the fetch, and the word it fetched fits the cause. -/
theorem faultRecordNamesTheInstruction : Obligations.FaultRecordNamesTheInstruction := by
  unfold Obligations.FaultRecordNamesTheInstruction
  intro s t r h ht _
  have hfits := (step_faulted_cause h ht).fits
  rw [step_faulted_record h ht]
  generalize r.cause = c at hfits ⊢
  refine ⟨rfl, rfl, ?_⟩
  cases c <;> exact hfits

end Sys2Proof.Machine
end

section
/-! The invariant (20_memory.md R60, R62, 40_fetch_execute.md R129, 60_exceptions.md R242): each clause, kept by every step. -/

namespace Sys2Proof.Machine

/-! ### Memory stays in canonical form -/

theorem resumeWait_mem {v : Waiting} {s t : State} (h : resumeWait v s = .next t) : t.mem = s.mem := by
  cases v with
  | getc => exact serviceGetc_mem h
  | inp => exact inAfterPrompt_mem h

/-- An instruction writes memory by MemReads and MemWrites alone. -/
theorem exec_mem_wf {i : Instr} {s t : State} (h : exec i s = .next t) (hm : s.mem.wf) : t.mem.wf := by
  cases i with
  | addReg | addImm | andReg | andImm | not | lea | jmp | jsr | jsrr | rti | res => cases h; exact hm
  | br => cases h; split <;> exact hm
  | ld | ldr => cases h; exact memRead_mem_wf _ hm
  | ldi => cases h; exact memRead_mem_wf _ (memRead_mem_wf _ hm)
  | st | str => cases h; exact memWrite_mem_wf _ _ hm
  | sti => cases h; exact memWrite_mem_wf _ _ (memRead_mem_wf _ hm)
  | trap v => rw [execTrap_mem h]; exact hm

theorem step_mem_wf {s t : State} (h : step s = .next t) (hm : s.mem.wf) : t.mem.wf := by
  obtain ⟨_, ⟨w, _, hwait⟩ | ⟨_, _, rfl⟩ | ⟨_, _, hexec⟩⟩ := step_cases h
  · rw [resumeWait_mem hwait]; exact hm
  · exact hm
  · exact exec_mem_wf hexec (memRead_mem_wf s.pc hm)

/-! ### A wait is inside the TRAP that was fetched -/

theorem resumeWait_waiting {v w : Waiting} {s t : State} (h : resumeWait v s = .next t) (hw : t.waiting = some w) :
    w = v := by
  rcases read_cases s with ⟨x, rest, hr⟩ | hb
  · cases (resumeWait_answered hr).symm.trans h
    rw [writeInputWord_eq] at hw
    cases hw
  · cases (resumeWait_of_readBlocks v hb).symm.trans h
    cases hw
    rfl

theorem execTrap_waiting {v : Byte} {w : Waiting} {s t : State} (h : execTrap v s = .next t) (hs : s.waiting = none)
    (hw : t.waiting = some w) : v = w.vector ∧ t.run = s.run := by
  by_cases hgetc : v = 0x20
  · subst hgetc
    cases resumeWait_waiting (v := .getc) h hw
    exact ⟨rfl, resumeWait_run (w := .getc) h⟩
  by_cases hin : v = 0x23
  · subst hin
    cases resumeWait_waiting (v := .inp) (s := s.writeBytes s.params.inPrompt) h hw
    exact ⟨rfl, resumeWait_run (w := .inp) (s := s.writeBytes s.params.inPrompt) h⟩
  rw [execTrap_frame hgetc hin h] at hw
  cases hs.symm.trans hw

/-- Only a TRAP whose service waits begins a wait; it leaves the run state and the fetched word. -/
theorem exec_waiting {i : Instr} {w : Waiting} {s t : State} (h : exec i s = .next t) (hs : s.waiting = none)
    (hw : t.waiting = some w) : i = .trap w.vector ∧ t.run = s.run ∧ t.ir = s.ir := by
  cases i with
  | addReg | addImm | andReg | andImm | not | lea | jmp | jsr | jsrr | st | str | rti | res =>
    cases h; cases hs.symm.trans hw
  | br => cases h; split at hw <;> cases hs.symm.trans hw
  | ld | ldr | sti => cases h; cases hs.symm.trans ((memRead_waiting ..).symm.trans hw)
  | ldi =>
    cases h
    cases hs.symm.trans ((memRead_waiting ..).symm.trans ((memRead_waiting ..).symm.trans hw))
  | trap v =>
    obtain ⟨hv, hrun⟩ := execTrap_waiting h hs hw
    exact ⟨congrArg _ hv, hrun, execTrap_ir h⟩

theorem fetch_waiting (s : State) : (fetch s).waiting = s.waiting := memRead_waiting s.pc s

theorem step_wait {s t : State} (hs : s.Inv) (h : step s = .next t) (w : Waiting) (hw : t.waiting = some w) :
    t.run = .running ∧ decode t.ir = .trap w.vector := by
  obtain ⟨hr, ⟨v, hv, hwait⟩ | ⟨hnone, _, rfl⟩ | ⟨hnone, _, hexec⟩⟩ := step_cases h
  · cases resumeWait_waiting hwait hw
    rw [resumeWait_run hwait, resumeWait_ir hwait]
    exact hs.wait w hv
  · cases hnone.symm.trans hw
  · obtain ⟨hi, hrun, hir⟩ := exec_waiting hexec ((fetch_waiting s).trans hnone) hw
    exact ⟨hrun.trans ((fetch_run s).trans hr), hir ▸ hi⟩

/-! ### A fault record agrees with its state -/

theorem raiseFault_agrees {c : FaultCause} {s : State} {r : FaultRecord} (hr : (raiseFault c s).run = .faulted r)
    (hfits : c.Fits s.params s.ir) : r.Agrees (raiseFault c s) := by
  cases hr
  refine ⟨rfl, rfl, ?_⟩
  cases c <;> exact hfits

theorem step_record {s t : State} (h : step s = .next t) (r : FaultRecord) (hr : t.run = .faulted r) : r.Agrees t := by
  have hfits := (step_faulted_cause h hr).fits
  rw [← fetch_params, ← fetch_ir] at hfits
  have heq := step_faulted_eq h hr
  rw [heq] at hr ⊢
  exact raiseFault_agrees hr hfits

/-! ### The invariant -/

/-- Settles O50: each clause of the invariant is kept by a lemma of its own, the device addresses as parameters. -/
theorem everyStepKeepsTheInvariant : Obligations.EveryStepKeepsTheInvariant := by
  unfold Obligations.EveryStepKeepsTheInvariant
  intro s t hs h
  exact {
    memory := step_mem_wf h hs.memory
    devices := (step_onlyAddsOutput h).params ▸ hs.devices
    record := step_record h
    wait := step_wait hs h }

/-- Settles O51: the reset memory lists no cell, its device addresses are the defaults, and it neither faulted nor waits. -/
theorem resetMeetsTheInvariant : Obligations.ResetMeetsTheInvariant := by
  unfold Obligations.ResetMeetsTheInvariant
  exact ⟨reset_mem_wf, by decide, nofun, nofun⟩

/-- Settles O52: no clause of the invariant reads the console's answers or the cancellation request. -/
theorem outsideInputsKeepTheInvariant : Obligations.OutsideInputsKeepTheInvariant := by
  unfold Obligations.OutsideInputsKeepTheInvariant
  intro s es ⟨hmemory, hdevices, hrecord, hwait⟩
  exact ⟨⟨hmemory, hdevices, hrecord, hwait⟩, ⟨hmemory, hdevices, hrecord, hwait⟩⟩

end Sys2Proof.Machine
end

section
/-! JSRR and MemRead, by the rules that JSR and the loads cite (42_control.md R163, 20_memory.md R63). -/

namespace Sys2Proof.Machine

/-- Settles O12: the base is read from the state in which R7 holds the link. -/
theorem jsrrLinksThenReadsTheBase : Obligations.JsrrLinksThenReadsTheBase := by
  unfold Obligations.JsrrLinksThenReadsTheBase
  intro s base
  rw [← State.setReg_reg]
  exact ⟨_, rfl, setReg_setPc_linked s.pc _ s⟩

/-- Settles O13: the rule that the loads cite. -/
theorem memReadPollsAtKbsrOnly : Obligations.MemReadPollsAtKbsrOnly := by
  unfold Obligations.MemReadPollsAtKbsrOnly
  exact memRead_readEffect

end Sys2Proof.Machine
end

section
/-! The trap services that end in their own cycle (44_trap.md R202 to R208): an input word taken, bytes written, the notice of
HALT, and an unknown vector. -/

namespace Sys2Proof.Machine

/-! ### GETC and IN -/

/-- Bytes written before the word is taken come first among those written. -/
theorem InputTaken.of_writeBytes {w : Word} {rest : List InputEvent} {bs cs : List Byte} {s t : State}
    (h : InputTaken w rest cs (s.writeBytes bs) t) : InputTaken w rest (bs ++ cs) s t := by
  have hbytes := h.bytes
  rw [State.writeBytes, State.emit_outBytes, bytesOf_map_byte, List.append_assoc] at hbytes
  exact { h with bytes := hbytes }

/-- Settles O23: GETC is its blocking read, which answers. -/
theorem getcTakesAnInputWord : Obligations.GetcTakesAnInputWord := by
  unfold Obligations.GetcTakesAnInputWord
  intro s w rest h
  rw [exec_trap_getc]
  exact ⟨_, resumeWait_answered h, inputTaken_writeInputWord w rest [] s⟩

/-- Settles O24: IN is its blocking read after the prompt, and writing the prompt takes no input. -/
theorem inPromptsReadsAndEchoes : Obligations.InPromptsReadsAndEchoes := by
  unfold Obligations.InPromptsReadsAndEchoes
  intro s w rest h
  have hread : ReadReturns (s.writeBytes s.params.inPrompt) w rest := h
  rw [exec_trap_in]
  exact ⟨_, resumeWait_answered hread, .of_writeBytes (inputTaken_writeInputWord w rest [.byte (lowByte w)] _)⟩

/-! ### OUT and HALT -/

theorem writeBytes_flush_printed (bs : List Byte) (s : State) : Printed bs s (s.writeBytes bs).flush where
  bytes := by simp [State.flush, State.writeBytes, bytesOf, bytesOf_map_byte]
  regs _ := rfl
  cond := rfl
  pc := rfl
  memory _ := rfl
  input := rfl

theorem writeBytes_flush_control (bs : List Byte) (s : State) : SameControl s (s.writeBytes bs).flush :=
  ⟨⟨rfl, rfl, rfl, rfl, rfl⟩, rfl⟩

/-- Settles O27: OUT writes a string of one byte and flushes it. -/
theorem outWritesTheLowByte : Obligations.OutWritesTheLowByte := by
  unfold Obligations.OutWritesTheLowByte
  exact fun s => ⟨_, rfl, writeBytes_flush_printed [lowByte (s.reg .r0)] s,
    writeBytes_flush_control [lowByte (s.reg .r0)] s⟩

/-- Settles O32: HALT writes its notice, flushes it and then sets the run state alone. -/
theorem haltStopsTheEngine : Obligations.HaltStopsTheEngine := by
  unfold Obligations.HaltStopsTheEngine
  intro s
  have hprinted := writeBytes_flush_printed s.params.haltNotice s
  have hcontrol := writeBytes_flush_control s.params.haltNotice s
  exact ⟨_, rfl, rfl, { hprinted with }, { hcontrol with }⟩

/-! ### Unknown vectors -/

theorem exec_trap_unknown_nop {v : Byte} {s : State} (hv : v.toNat < 0x20 ∨ 0x25 < v.toNat)
    (hp : s.params.unknownTrap = .nop) : exec (.trap v) s = .next s := by
  simp only [exec, execTrap, (trapService_unknown v).2 hv, serviceUnknown, hp]

/-- Settles O33: the service of an unknown vector follows the parameter, and a fault only sets the run state. -/
theorem unknownVectorDoesAsConfigured : Obligations.UnknownVectorDoesAsConfigured := by
  unfold Obligations.UnknownVectorDoesAsConfigured
  exact fun s v hv => ⟨exec_trap_unknown_nop hv, fun hp => ⟨_, exec_trap_unknown_fault hv hp, ended_setRun _ s⟩⟩

end Sys2Proof.Machine
end

section
/-! PUTS and PUTSP (44_trap.md R204, R206, R209): where a scan ends, and what the service answers there. -/

namespace Sys2Proof.Machine

section
variable {ends : Word → Bool} {stop : Word → Prop} (hends : ∀ w, ends w = true ↔ stop w) (chars : Word → List Byte)
  {s : State} {n : Nat}
include hends

/-- The cells that a scan passes, in the form that the laws of `scan` ask for. -/
theorem ScanPasses.not_ends (h : ScanPasses stop s n) (k : Nat) (hk : k < n) :
    scanAddr s k ≠ s.params.kbsrAddr ∧ ends (s.cell (scanAddr s k)) = false := by
  obtain ⟨haddr, hstop⟩ := h k hk
  exact ⟨haddr, Bool.eq_false_iff.2 fun he => hstop ((hends _).1 he)⟩

theorem writeString_of_stops (hn : n < 65536) (h : ScanStops stop s n) :
    writeString ends chars s =
      .next (s.writeBytes ((List.range n).flatMap fun k => chars (s.cell (scanAddr s k)))).flush := by
  obtain ⟨hpasses, haddr, hstop⟩ := h
  rw [writeString, scan_stops ends chars s (s.reg .r0) hn (hpasses.not_ends hends) haddr ((hends _).2 hstop)]
  rfl

theorem writeString_of_reaches (hn : n < 65536) (h : ScanReachesKbsr stop s n) :
    writeString ends chars s = .refused .scanReachesKbsr := by
  obtain ⟨hpasses, haddr⟩ := h
  rw [writeString, scan_reaches ends chars s (s.reg .r0) hn (hpasses.not_ends hends) haddr]

end

/-! ### A scan ends -/

/-- The scan addresses run through the whole address space. -/
theorem exists_scanAddr_eq (s : State) (a : Word) : ∃ n < 65536, scanAddr s n = a :=
  ⟨(a - s.reg .r0).toNat, (a - s.reg .r0).isLt, by
    rw [scanAddr, BitVec.ofNat_toNat, BitVec.setWidth_eq, BitVec.add_comm, BitVec.sub_add_cancel]⟩

/-- The first cell that is at `KBSR_ADDR` or stops the scan is within 65536 cells, since one of them is at `KBSR_ADDR`. -/
theorem scan_ends (stop : Word → Prop) (s : State) :
    ∃ n < 65536, ScanStops stop s n ∨ ScanReachesKbsr stop s n := by
  classical
  obtain ⟨m, hm, hkbsr⟩ := exists_scanAddr_eq s s.params.kbsrAddr
  have hex : ∃ k, scanAddr s k = s.params.kbsrAddr ∨ stop (s.cell (scanAddr s k)) := ⟨m, .inl hkbsr⟩
  have hpasses : ScanPasses stop s (Nat.find hex) := fun k hk => not_or.1 (Nat.find_min hex hk)
  refine ⟨Nat.find hex, (Nat.find_min' hex (.inl hkbsr)).trans_lt hm, ?_⟩
  by_cases haddr : scanAddr s (Nat.find hex) = s.params.kbsrAddr
  · exact .inr ⟨hpasses, haddr⟩
  · exact .inl ⟨hpasses, haddr, (Nat.find_spec hex).resolve_left haddr⟩

theorem writeString_ends {ends : Word → Bool} {stop : Word → Prop} (hends : ∀ w, ends w = true ↔ stop w)
    (chars : Word → List Byte) (s : State) : ∃ n, n < 65536 ∧
      ((ScanStops stop s n ∧ ∃ t, writeString ends chars s = .next t) ∨
       (ScanReachesKbsr stop s n ∧ writeString ends chars s = .refused .scanReachesKbsr)) := by
  obtain ⟨n, hn, h⟩ := scan_ends stop s
  exact ⟨n, hn, h.imp (fun h => ⟨h, _, writeString_of_stops hends chars hn h⟩)
    fun h => ⟨h, writeString_of_reaches hends chars hn h⟩⟩

/-! ### The two services -/

theorem putsEnds_iff (w : Word) : putsEnds w = true ↔ w = 0 := beq_iff_eq

theorem putspEnds_iff (w : Word) : putspEnds w = true ↔ w.extractLsb' 0 8 = 0 := beq_iff_eq

theorem exec_trap_puts (s : State) : exec (.trap 0x22) s = writeString putsEnds putsChars s := rfl

theorem exec_trap_putsp (s : State) : exec (.trap 0x24) s = writeString putspEnds putspChars s := rfl

theorem putsBytes_eq (s : State) (n : Nat) :
    putsBytes s n = (List.range n).flatMap fun k => putsChars (s.cell (scanAddr s k)) :=
  List.map_eq_flatMap

/-- Settles O28: PUTS is a string write of one byte a cell. -/
theorem putsWritesUpToTheZeroCell : Obligations.PutsWritesUpToTheZeroCell := by
  unfold Obligations.PutsWritesUpToTheZeroCell
  intro s n hn h
  rw [putsBytes_eq]
  exact ⟨_, writeString_of_stops putsEnds_iff putsChars hn h, writeBytes_flush_printed _ s, writeBytes_flush_control _ s⟩

/-- Settles O29: PUTSP is a string write of one or two bytes a cell. -/
theorem putspWritesPackedCharacters : Obligations.PutspWritesPackedCharacters := by
  unfold Obligations.PutspWritesPackedCharacters
  intro s n hn h
  exact ⟨_, writeString_of_stops putspEnds_iff putspChars hn h, writeBytes_flush_printed _ s,
    writeBytes_flush_control _ s⟩

/-- Settles O30: PUTS is a string write, whose scan ends. -/
theorem putsScanEndsOrIsRefused : Obligations.PutsScanEndsOrIsRefused := by
  unfold Obligations.PutsScanEndsOrIsRefused
  exact writeString_ends putsEnds_iff putsChars

/-- Settles O31: PUTSP is a string write, whose scan ends. -/
theorem putspScanEndsOrIsRefused : Obligations.PutspScanEndsOrIsRefused := by
  unfold Obligations.PutspScanEndsOrIsRefused
  exact writeString_ends putspEnds_iff putspChars

end Sys2Proof.Machine
end

section
/-! Images (70_reset_and_hazards.md R272): the words placed from an address on, and the cells around them. -/

namespace Sys2Proof.Machine

theorem loadImage_eq_some {m m' : Memory} {origin : Word} {ws : List Word} (h : loadImage m (origin :: ws) = some m') :
    origin.toNat + ws.length ≤ 65536 ∧ m' = placeWords m origin.toNat ws := by
  rw [loadImage] at h
  split at h
  · next hfits => exact ⟨hfits, (Option.some.inj h).symm⟩
  · cases h

theorem placeWords_read_outside (ws : List Word) (m : Memory) (a b : Nat) (hb : b < a ∨ a + ws.length ≤ b) :
    (placeWords m a ws).read b = m.read b := by
  induction ws generalizing m a with
  | nil => rfl
  | cons w ws ih =>
    rw [List.length_cons] at hb
    rw [placeWords, ih _ _ (by omega), Memory.read_write_other _ _ _ _ (by omega)]

/-- The first word is placed below the rest, and so is not overwritten. -/
theorem placeWords_read (ws : List Word) (m : Memory) (a k : Nat) {w : Word} (hk : ws[k]? = some w) :
    (placeWords m a ws).read (a + k) = w := by
  induction ws generalizing m a k with
  | nil => cases hk
  | cons v ws ih =>
    cases k with
    | zero =>
      cases hk
      rw [placeWords, placeWords_read_outside _ _ _ _ (.inl (by omega))]
      exact Memory.read_write_same m a w
    | succ k =>
      have haddr : a + (k + 1) = a + 1 + k := by omega
      rw [placeWords, haddr]
      exact ih _ _ k hk

theorem placeWords_wf (ws : List Word) {m : Memory} {a : Nat} (hm : m.wf) (ha : a + ws.length ≤ 65536) :
    (placeWords m a ws).wf := by
  induction ws generalizing m a with
  | nil => exact hm
  | cons w ws ih =>
    rw [List.length_cons] at ha
    exact ih (Memory.write_wf w hm (by omega)) (by omega)

/-- Settles O54: an image that loads is its words placed from the origin on, inside the address space. -/
theorem imageWordsGoToConsecutiveCells : Obligations.ImageWordsGoToConsecutiveCells := by
  unfold Obligations.ImageWordsGoToConsecutiveCells
  intro m m' origin ws h
  obtain ⟨hfits, rfl⟩ := loadImage_eq_some h
  exact ⟨fun k _ hk => placeWords_read ws m _ k hk, placeWords_read_outside ws m _, fun hm => placeWords_wf ws hm hfits⟩

end Sys2Proof.Machine
end
